-- ==== Sys2Proof/Word.lean ====
section
/-! DEFINITION. The word types of the SpookyHash unit (spec/00_scope.md R9: words of 64 bits, bytes of 8 bits,
all unsigned) and the rotation of R12. Addition and exclusive or are those of `BitVec`, which wrap and set no flag
(R10, R11). -/

namespace Sys2Proof

/-- A byte, 0 to 255 (R9). -/
abbrev Byte := BitVec 8

/-- A word, 0 to 2^64 - 1, bit 0 least significant (R9). -/
abbrev Word := BitVec 64

/-- A packet header (R61). -/
abbrev Header := BitVec 32

/-- The twelve words of STATE, of a block's data, or of the long-path scratch (R20, R13, R28). -/
abbrev Words12 := Vector Word 12

/-- The four words (a, b, c, d) of the short path, in that order (R28, R120). -/
abbrev Words4 := Vector Word 4

end Sys2Proof
end

