-- ==== Sys2Proof/Config.lean ====
section
/-! DEFINITION. The parameters of the unit: those the source fixes (spec/00_scope.md R6) and those the spec fixes
(R7). None may be changed and a model takes none as an argument. The one parameter the spec leaves open is
RESET_KINDS (R7, R160), at its stated default of one kind. The spec leaves no value free, so there is no opaque
constant here. The rotate amounts of R6 stand beside the networks that use them, in Machine/. -/

namespace Sys2Proof.Config

/-- NUM_VARS: words in STATE and words in a block (R6). -/
abbrev numVars : Nat := 12

/-- BLOCK_SIZE: bytes in a block (R6). -/
abbrev blockSize : Nat := 96

/-- BUF_SIZE: bytes of BUF, and the threshold between the short and the long path (R6). -/
abbrev bufSize : Nat := 192

/-- SHORT_CHUNK: bytes in a chunk of the short path (R6). -/
abbrev shortChunk : Nat := 32

/-- The greatest value of TOTAL_LENGTH, at which it saturates (R7, R25). -/
abbrev totalMax : Nat := 2 ^ 64 - 1

/-- SEED_BYTES: bytes in the payload of INIT (R7). -/
abbrev seedBytes : Nat := 16

/-- The greatest LEN of an APPEND: LEN has 24 bits (R7, R65). -/
abbrev lenMax : Nat := 16777215

/-- The kinds of reset there are: RESET_KINDS, left open by R160 with the default of one kind
(DESIGN CHOICE, log entry 5). -/
inductive ResetKind where
  | only
deriving DecidableEq, Repr

end Sys2Proof.Config
end

