-- ==== Sys2Proof/Machine/Operands.lean ====
section
/-! DEFINITION. Operand assembly and byte order: little-endian conversion in both directions
(spec/00_scope.md R13, spec/20_memory.md R40, R42), rotation (R12), the fields of a header
(spec/30_encoding.md R61, R65) and the seeded pattern of STATE (spec/40_streaming_commands.md R80).
The conversion functions here are total; the bounds-checked reads the engines make are in Machine/Ops.lean. -/

namespace Sys2Proof

/-- `le(b)` as a natural number: the sum of `b[j] * 2^(8j)`, byte 0 least significant (R13). -/
def leNat : List Byte → Nat
  | [] => 0
  | b :: bs => b.toNat + 256 * leNat bs

/-- `le(b)` as a word: missing high bytes count as zero, so a narrow read is zero-extended (R13, R45). -/
def le (bs : List Byte) : Word := BitVec.ofNat 64 (leNat bs)

/-- The `n` low bytes of `v`, least significant first: the inverse direction, which the host uses to write headers,
seeds and responses (R66, R71, R76). -/
def leBytes : Nat → Nat → List Byte
  | 0, _ => []
  | n + 1, v => BitVec.ofNat 8 v :: leBytes n (v / 256)

/-- `Words(B)`: the twelve data words of a 96-byte block, word i from bytes 8i to 8i+7 (R13, R41). -/
def wordsOf (B : List Byte) : Words12 :=
  Vector.ofFn fun i : Fin 12 => le ((B.drop (8 * i.val)).take 8)

/-- `rotl64`: 64-bit circular left shift; amount 0 is the identity (R12). -/
def rotl64 (x : Word) (k : Nat) : Word := x.rotateLeft k

/-- `rotr64`, the inverse of `rotl64` (R12). -/
def rotr64 (x : Word) (k : Nat) : Word := rotl64 x ((64 - k) % 64)

/-- SC_CONST, the "fixed odd constant" C (R6). -/
def scConst : Word := 0xdeadbeefdeadbeef

/-- The seeded pattern of STATE: (seed1, seed2, C) four times (R80). -/
def seeded (seed1 seed2 : Word) : Words12 :=
  #v[seed1, seed2, scConst, seed1, seed2, scConst, seed1, seed2, scConst, seed1, seed2, scConst]

/-- OPC, header bits 7:0 (R61). -/
def Header.opc (h : Header) : BitVec 8 := h.extractLsb' 0 8

/-- ARG, header bits 31:8; the LEN of an APPEND, unsigned and not scaled (R61, R65). -/
def Header.arg (h : Header) : BitVec 24 := h.extractLsb' 8 24

/-- The header word of four bytes, least significant first (R76). -/
def headerOfBytes (b0 b1 b2 b3 : Byte) : Header := BitVec.ofNat 32 (leNat [b0, b1, b2, b3])

/-- `pat(n, off)`: the n bytes `(i + off) mod 256` (R71). -/
def pat (n off : Nat) : List Byte := (List.range n).map fun i => BitVec.ofNat 8 (i + off)

end Sys2Proof
end

