-- ==== Sys2Proof/Syntax.lean ====
section
/-! DEFINITION. The commands of the unit: one constructor for each row of spec/opcode_table.json
(spec/30_encoding.md R67). The internal operations MIX, END_PARTIAL, END, SHORT_MIX, SHORT_END and SHORT have no
operation code and are no commands (R77). -/

namespace Sys2Proof

/-- A whole packet with a legal header: the command and the operands its payload carries. -/
inductive Instr where
  /-- INIT (R80): construct the hasher state from two seeds. -/
  | init (seed1 seed2 : Word)
  /-- APPEND (R81): supply the next bytes of the stream; LEN is the number of bytes. -/
  | append (payload : List Byte)
  /-- DIGEST64 (R93): answer word 0 of the digest. -/
  | digest64
  /-- DIGEST128 (R87): answer both words of the digest. -/
  | digest128
deriving DecidableEq, Repr

end Sys2Proof
end

