-- ==== Sys2Proof/WellFormed.lean ====
section
/-! DEFINITION. Which commands have an encoding. The one check there is: LEN has 24 bits, so one APPEND carries at
most 16777215 bytes (spec/30_encoding.md R65, spec/93_implementation_defined.md U9). -/

namespace Sys2Proof

/-- The command can be written as a packet. -/
def Instr.wellFormed : Instr → Bool
  | .init _ _ => true
  | .append payload => decide (payload.length ≤ Config.lenMax)
  | .digest64 => true
  | .digest128 => true

end Sys2Proof
end

