-- ==== Sys2Proof/Decode.lean ====
section
/-! DEFINITION. Decoding a packet from the command input, and the encoder
(spec/30_encoding.md R60 to R70 and R76, spec/60_exceptions.md R141, R142, R145, R151). The decoder is total on any
bytes and names each reason for which it gives no command. The byte carrier is the one `step` fetches from; the
32-bit word carrier of R76 has its own decoder and encoder at the end. -/

namespace Sys2Proof

/-- One row of the opcode map: a header `h` selects it when `h & mask = match` (R67). -/
structure OpcodeRow where
  mnemonic : String
  pattern : Header
  mask : Header
deriving DecidableEq, Repr

/-- The opcode map (R67), as spec/opcode_table.json lists it. -/
def opcodeRows : List OpcodeRow :=
  [⟨"INIT", 0x00000001, 0xffffffff⟩,
   ⟨"APPEND", 0x00000002, 0x000000ff⟩,
   ⟨"DIGEST64", 0x00000003, 0xffffffff⟩,
   ⟨"DIGEST128", 0x00000004, 0xffffffff⟩]

/-- A header selects a row of the opcode map (R67). -/
def OpcodeRow.selects (row : OpcodeRow) (h : Header) : Bool := decide (h &&& row.mask = row.pattern)

/-- What a header says: one of the four rows of R67, or one of the two kinds of illegal header of R68. -/
inductive HeaderKind where
  | init
  | append
  | digest64
  | digest128
  | illegalOpcode
  | illegalField
deriving DecidableEq, Repr

/-- Decoding a header, in the order of R145: OPC first; then, for an OPC other than that of APPEND, bits 31:8. -/
def decodeHeader (h : Header) : HeaderKind :=
  if h.opc = 0x01 then (if h.arg = 0 then .init else .illegalField)
  else if h.opc = 0x02 then .append
  else if h.opc = 0x03 then (if h.arg = 0 then .digest64 else .illegalField)
  else if h.opc = 0x04 then (if h.arg = 0 then .digest128 else .illegalField)
  else .illegalOpcode

/-- The number of payload bytes, told by the header alone (R70). -/
def payloadLength (h : Header) : Nat :=
  if h.opc = 0x02 then h.arg.toNat
  else if h = 0x00000001 then Config.seedBytes
  else 0

/-- What stands at the head of a command input whose units are of type `α` (bytes, or words), with the input that
follows the packet. -/
inductive Decoded (α : Type) where
  /-- A whole packet with a legal header. -/
  | instr (i : Instr) (rest : List α)
  /-- A header of R68 (a); the packet is the header alone. -/
  | illegalOpcode (rest : List α)
  /-- A header of R68 (b); the packet is the header alone. -/
  | illegalField (rest : List α)
  /-- The input ends before the header or the payload is complete (R70, R151). -/
  | incomplete
deriving DecidableEq, Repr

/-- The first `n` units and the rest, if there are that many. -/
def takeExactly {α : Type} (n : Nat) (xs : List α) : Option (List α × List α) :=
  if n ≤ xs.length then some (xs.take n, xs.drop n) else none

/-- The two seeds of an INIT payload: bytes 0 to 7 and bytes 8 to 15, each little-endian (R66). -/
def seedsOf (payload : List Byte) : Word × Word :=
  (le (payload.take 8), le ((payload.drop 8).take 8))

/-- Decoding on the byte carrier: four header bytes, least significant first, then the payload (R76). -/
def decode : List Byte → Decoded Byte
  | b0 :: b1 :: b2 :: b3 :: rest =>
    match decodeHeader (headerOfBytes b0 b1 b2 b3) with
    | .illegalOpcode => .illegalOpcode rest
    | .illegalField => .illegalField rest
    | .init =>
      match takeExactly (payloadLength (headerOfBytes b0 b1 b2 b3)) rest with
      | some (payload, rest') => .instr (.init (seedsOf payload).1 (seedsOf payload).2) rest'
      | none => .incomplete
    | .append =>
      match takeExactly (payloadLength (headerOfBytes b0 b1 b2 b3)) rest with
      | some (payload, rest') => .instr (.append payload) rest'
      | none => .incomplete
    | .digest64 => .instr .digest64 rest
    | .digest128 => .instr .digest128 rest
  | _ => .incomplete

/-- The header of a command (R62 to R65, R67): `(n << 8) + 0x02` for an APPEND of n bytes. -/
def Instr.header : Instr → Header
  | .init _ _ => 0x00000001
  | .append payload => BitVec.ofNat 32 (256 * payload.length + 2)
  | .digest64 => 0x00000003
  | .digest128 => 0x00000004

/-- The payload of a command (R62 to R66). -/
def Instr.payload : Instr → List Byte
  | .init seed1 seed2 => leBytes 8 seed1.toNat ++ leBytes 8 seed2.toNat
  | .append payload => payload
  | .digest64 => []
  | .digest128 => []

/-- The bytes of a command's packet on the byte carrier (R76). -/
def encode (i : Instr) : List Byte := leBytes 4 i.header.toNat ++ i.payload

/-- The bytes of the instruction whose bits are `w`, bit 0 the least significant bit of the first byte, with zeros
above `nbits`: the header and as many payload bytes as that header calls for. -/
def tableBytes (nbits w : Nat) : List Byte :=
  let bits := w % 2 ^ nbits
  let h : Header := BitVec.ofNat 32 bits
  leBytes (4 + payloadLength h) bits

/-- The instruction the decoder reads from the bits `w` of a row of spec/opcode_table.json. -/
def decodeTableWord (nbits w : Nat) : Option Instr :=
  match decode (tableBytes nbits w) with
  | .instr i _ => some i
  | _ => none

/-- Payload bytes packed four to a word, least significant byte first, the last word zero-padded (R76). -/
def packWords : List Byte → List (BitVec 32)
  | b0 :: b1 :: b2 :: b3 :: rest => headerOfBytes b0 b1 b2 b3 :: packWords rest
  | [] => []
  | short => [BitVec.ofNat 32 (leNat short)]

/-- The bytes that words carry, four from each, least significant first (R76). -/
def unpackWords : List (BitVec 32) → List Byte
  | [] => []
  | w :: ws => leBytes 4 w.toNat ++ unpackWords ws

/-- How many words carry `n` payload bytes (R76). -/
def wordCount (n : Nat) : Nat := (n + 3) / 4

/-- Decoding on the 32-bit word carrier: the header is one word, the payload is packed four bytes to a word (R76).
The padding bytes of the last word are not looked at (DESIGN CHOICE, log entry 9). -/
def decodeWords : List (BitVec 32) → Decoded (BitVec 32)
  | [] => .incomplete
  | h :: ws =>
    match decodeHeader h with
    | .illegalOpcode => .illegalOpcode ws
    | .illegalField => .illegalField ws
    | .init =>
      match takeExactly (wordCount (payloadLength h)) ws with
      | some (packed, rest) =>
        .instr (.init (seedsOf (unpackWords packed)).1 (seedsOf (unpackWords packed)).2) rest
      | none => .incomplete
    | .append =>
      match takeExactly (wordCount (payloadLength h)) ws with
      | some (packed, rest) => .instr (.append ((unpackWords packed).take (payloadLength h))) rest
      | none => .incomplete
    | .digest64 => .instr .digest64 ws
    | .digest128 => .instr .digest128 ws

/-- The words of a command's packet on the 32-bit word carrier (R76). -/
def encodeWords (i : Instr) : List (BitVec 32) := i.header :: packWords i.payload

end Sys2Proof
end

