-- ==== Sys2Proof/Machine/State.lean ====
section
/-! DEFINITION. The state of one unit (spec/10_state.md R20 to R35) with the two ends of its interface
(spec/30_encoding.md R60), the reasons a step can stop, and the state after reset (spec/70_reset_and_hazards.md
R160). -/

namespace Sys2Proof.Machine

/-- The contents of BUF (R22): the offsets that hold a byte, strictly rising, each with its byte. An offset that is
not listed holds no value (R23, R32). -/
abbrev Memory := List Host.Cell

/-- STATUS of a response (R75). No other code is produced. -/
inductive Status where
  /-- 0x00: the command was performed. -/
  | ok
  /-- 0x01: OPC is none of 0x01 to 0x04 (R68 (a), R141). -/
  | illegalOpcode
  /-- 0x02: OPC is 0x01, 0x03 or 0x04 and bits 31:8 are not all zero (R68 (b), R142). -/
  | illegalField
deriving DecidableEq, Repr

/-- A response: STATUS and the two words W0 and W1 (R74). -/
structure Response where
  status : Status
  w0 : Word
  w1 : Word
deriving DecidableEq, Repr

/-- The unit with the two ends of its interface. The first four fields are all the architectural state there is
(spec/10_state.md); `input` and `output` are the command input and the response output (R60). -/
structure State where
  /-- STATE[0..11] (R20). -/
  state : Words12
  /-- BUF[0..191] (R22). -/
  buf : Memory
  /-- TOTAL_LENGTH (R25). -/
  totalLength : BitVec 64
  /-- BUFFERED_LENGTH (R24). -/
  bufferedLength : BitVec 8
  /-- The bytes that have arrived on the command input and are not yet consumed, first to be consumed first
  (R60, R76). -/
  input : List Byte
  /-- The responses emitted so far, in the order emitted (R60, R171). -/
  output : List Response
deriving DecidableEq, Repr

/-- Why the machine stops. Each reason is the spec's one fault class, a read that has no value
(spec/60_exceptions.md R143, spec/93_implementation_defined.md U1), seen at a different place. None of them can
arise from a state that meets R26, so none is a response the hardware gives. The decode faults ILLEGAL_OPCODE and
ILLEGAL_FIELD are no such reason: they are responses, and the unit goes on (R146). -/
inductive Fault where
  /-- A read of BUF at an offset outside the valid region, or at one that holds no value (R23, U1). Raised by
  `readBufByte`. Safe: the model stops where a unit would read an unspecified byte. -/
  | bufNoValue
  /-- An access to BUF at an offset of 192 or more, which does not exist (R22, R46). Raised by `readBufByte` and
  `writeBufBytes`. Safe: the model stops. -/
  | bufNoOffset
  /-- A read of a byte sequence at or beyond its length (R51, U1). Raised by `byteAt`, `sliceAt` and `blockWords`.
  Safe: the model stops. -/
  | beyondSequence
deriving DecidableEq, Repr

/-- Why the model gives no meaning. -/
inductive Refusal where
  /-- The instruction has no meaning yet. Raised by an arm of `exec` only; no arm raises it. Safe. -/
  | notModelled (mnemonic : String)
deriving DecidableEq, Repr

/-- The unit right after reset: STATE as `INIT 0, 0` leaves it, both counters 0, no byte of BUF with a value, no
packet partly received, no response pending (R31, R32, R33, R160). -/
def State.reset : State where
  state := #v[0, 0, 0xdeadbeefdeadbeef, 0, 0, 0xdeadbeefdeadbeef,
              0, 0, 0xdeadbeefdeadbeef, 0, 0, 0xdeadbeefdeadbeef]
  buf := []
  totalLength := 0
  bufferedLength := 0
  input := []
  output := []

end Sys2Proof.Machine
end

