-- ==== Sys2Proof/Machine/Ops.lean ====
section
/-! DEFINITION. The operations every command is made of: setting one field of State, BUF as a memory, the checked
reads of BUF and of byte sequences, counting bytes, answering, and taking a decode fault
(spec/10_state.md, spec/20_memory.md, spec/60_exceptions.md R146). -/

namespace Sys2Proof.Machine

/-! ### One field of State at a time -/

/-- Write STATE. -/
def State.setState (s : State) (v : Words12) : State := { s with state := v }

/-- Replace the contents of BUF. -/
def State.setBuf (s : State) (m : Memory) : State := { s with buf := m }

/-- Write TOTAL_LENGTH. -/
def State.setTotalLength (s : State) (v : BitVec 64) : State := { s with totalLength := v }

/-- Write BUFFERED_LENGTH. -/
def State.setBufferedLength (s : State) (v : BitVec 8) : State := { s with bufferedLength := v }

/-- Leave `bytes` to be consumed from the command input. -/
def State.setInput (s : State) (bytes : List Byte) : State := { s with input := bytes }

/-- Emit one response (R60, R74). -/
def State.emit (s : State) (r : Response) : State := { s with output := s.output ++ [r] }

/-! ### BUF as a memory -/

/-- What an offset of BUF that is not listed reads as: no value (R23, R32; log entry 3). -/
def Memory.unlisted : Option Byte := none

/-- The byte at an offset, if the offset holds one. -/
def Memory.read : Memory → Nat → Option Byte
  | [], _ => Memory.unlisted
  | (k, b) :: m, a => if k = a then some b else Memory.read m a

/-- Write one byte, keeping the offsets rising. -/
def Memory.write : Memory → Nat → Byte → Memory
  | [], a, v => [(a, v)]
  | (k, b) :: m, a, v =>
    if a < k then (a, v) :: (k, b) :: m
    else if k = a then (a, v) :: m
    else (k, b) :: Memory.write m a v

/-- The offsets listed are `lo` or more, strictly rising, and below 192. -/
def Memory.risingFrom : Nat → Memory → Bool
  | _, [] => true
  | lo, (k, _) :: m => decide (lo ≤ k) && decide (k < Config.bufSize) && Memory.risingFrom (k + 1) m

/-- The canonical form: offsets strictly rising, each of them an offset of BUF. No entry can equal what an unlisted
offset reads as, since that is no value. -/
def Memory.wf (m : Memory) : Bool := Memory.risingFrom 0 m

/-- Read BUF at one offset: a value only inside the valid region `BUF[0 .. BUFFERED_LENGTH)` (R23). -/
def readBufByte (s : State) (a : Nat) : Except Fault Byte :=
  if Config.bufSize ≤ a then .error .bufNoOffset
  else if s.bufferedLength.toNat ≤ a then .error .bufNoValue
  else match s.buf.read a with
    | some b => .ok b
    | none => .error .bufNoValue

/-- `BUF[a .. a+n)`, in the order of the offsets. -/
def readBufBytes (s : State) : Nat → Nat → Except Fault (List Byte)
  | _, 0 => .ok []
  | a, n + 1 => do
    let b ← readBufByte s a
    let bs ← readBufBytes s (a + 1) n
    return b :: bs

/-- Plain byte copies to the offsets from `a` upward (R52). -/
def writeBufBytes : Memory → Nat → List Byte → Except Fault Memory
  | m, _, [] => .ok m
  | m, a, b :: bs =>
    if Config.bufSize ≤ a then .error .bufNoOffset else writeBufBytes (m.write a b) (a + 1) bs

/-! ### Checked reads of a byte sequence (R51: nothing is read at or beyond the length) -/

/-- `S[j]`. -/
def byteAt (S : List Byte) (j : Nat) : Except Fault Byte :=
  match S[j]? with
  | some b => .ok b
  | none => .error .beyondSequence

/-- `S[a .. a+n)` (R14). -/
def sliceAt (S : List Byte) (a n : Nat) : Except Fault (List Byte) :=
  if a + n ≤ S.length then .ok ((S.drop a).take n) else .error .beyondSequence

/-- `le64(S[a .. a+8))` (R13, R45). -/
def le64At (S : List Byte) (a : Nat) : Except Fault Word := do return le (← sliceAt S a 8)

/-- `le32(S[a .. a+4))`, zero-extended (R13, R45). -/
def le32At (S : List Byte) (a : Nat) : Except Fault Word := do return le (← sliceAt S a 4)

/-- `S[j] << k`, the byte zero-extended to 64 bits before the shift (R129). -/
def shiftedByteAt (S : List Byte) (j k : Nat) : Except Fault Word := do
  return (← byteAt S j).setWidth 64 <<< k

/-- `Words(B)`, for a sequence B of 96 bytes and no other (R13, R41). -/
def blockWords (B : List Byte) : Except Fault Words12 :=
  if B.length = Config.blockSize then .ok (wordsOf B) else .error .beyondSequence

/-! ### Counting and answering -/

/-- TOTAL_LENGTH after `n` more bytes: it saturates and never wraps (R25, R85). -/
def addToTotal (total : BitVec 64) (n : Nat) : BitVec 64 :=
  BitVec.ofNat 64 (min (total.toNat + n) Config.totalMax)

/-- The response of a command that carries no digest: (OK, 0, 0) (R74). -/
def okResponse : Response := ⟨.ok, 0, 0⟩

/-- The 8-bit code of a STATUS (R75). -/
def Status.code : Status → BitVec 8
  | .ok => 0x00
  | .illegalOpcode => 0x01
  | .illegalField => 0x02

/-- A response as 17 bytes: STATUS, then W0 and W1, each least significant byte first
(spec/92_eei_decisions.md D11). -/
def Response.toBytes (r : Response) : List Byte :=
  r.status.code :: (leBytes 8 r.w0.toNat ++ leBytes 8 r.w1.toNat)

/-- Taking a decode fault (R146): the response (STATUS, 0, 0) is emitted and nothing else happens; there is no saved
state, no mode and no handler. The unit then takes the next packet, so there is no return operation (R147). The
caller has consumed the header. -/
def raiseFault (status : Status) (s : State) : State := s.emit ⟨status, 0, 0⟩

/-- The outcome of a command whose operations may have read something that has no value. -/
def toOutcome : Except Fault State → Host.Outcome State Fault Refusal
  | .ok s => .next s
  | .error f => .fault f

end Sys2Proof.Machine
end

