-- ==== Sys2Proof/Machine/Mixer.lean ====
section
/-! DEFINITION. The block mixer MIX (spec/41_block_mixer.md R100 to R104), its inverse, and MIX over the blocks of a
byte sequence (spec/40_streaming_commands.md R83). -/

namespace Sys2Proof.Machine

/-- The indices 0 to 11, in the order of the steps. -/
def steps12 : List (Fin 12) := [0, 1, 2, 3, 4, 5, 6, 7, 8, 9, 10, 11]

/-- Overwrite word `i`. -/
def put {n : Nat} (v : Vector Word n) (i : Fin n) (w : Word) : Vector Word n := v.set i w

/-- MIX_ROT (R6, R101). -/
def mixRot : Vector Nat 12 := #v[11, 32, 43, 31, 17, 28, 39, 57, 55, 54, 22, 46]

/-- Step i of MIX: five statements, each seeing the effect of those before it; index arithmetic is modulo 12
(R101). -/
def mixStep (d s : Words12) (i : Fin 12) : Words12 :=
  let s := put s i (s[i] + d[i])
  let s := put s (i + 2) (s[i + 2] ^^^ s[i + 10])
  let s := put s (i + 11) (s[i + 11] ^^^ s[i])
  let s := put s i (rotl64 s[i] mixRot[i])
  put s (i + 11) (s[i + 11] + s[i + 1])

/-- MIX: absorb one block of twelve data words `d` into the state `s` (R100). -/
def mix (d s : Words12) : Words12 := steps12.foldl (mixStep d) s

/-- Step i of the inverse of MIX: the five statements undone in reverse (R104). -/
def unmixStep (d s : Words12) (i : Fin 12) : Words12 :=
  let s := put s (i + 11) (s[i + 11] - s[i + 1])
  let s := put s i (rotl64 s[i] (64 - mixRot[i]))
  let s := put s (i + 11) (s[i + 11] ^^^ s[i])
  let s := put s (i + 2) (s[i + 2] ^^^ s[i + 10])
  put s i (s[i] - d[i])

/-- The inverse of MIX for a fixed `d`; the hardware does not implement it (R104). -/
def unmix (d s : Words12) : Words12 := steps12.reverse.foldl (unmixStep d) s

/-- One step of MIX on the five words it touches: `sp` is s[i-1], `si` is s[i], `sn` is s[i+1], `s2` is s[i+2] and
`s10` is s[i+10]. The answer is the new s[i-1], s[i] and s[i+2], for the unrolled form (R102). -/
def mixLine (d sp si sn s2 s10 : Word) (k : Nat) : Word × Word × Word :=
  let si := si + d
  let s2 := s2 ^^^ s10
  let sp := sp ^^^ si
  let si := rotl64 si k
  let sp := sp + sn
  (sp, si, s2)

/-- MIX unrolled: the twelve lines of R102 with the indices written out. -/
def mixUnrolled (d s : Words12) : Words12 :=
  let (s0, s1, s2, s3) := (s[0], s[1], s[2], s[3])
  let (s4, s5, s6, s7) := (s[4], s[5], s[6], s[7])
  let (s8, s9, s10, s11) := (s[8], s[9], s[10], s[11])
  let (s11, s0, s2) := mixLine d[0] s11 s0 s1 s2 s10 11
  let (s0, s1, s3) := mixLine d[1] s0 s1 s2 s3 s11 32
  let (s1, s2, s4) := mixLine d[2] s1 s2 s3 s4 s0 43
  let (s2, s3, s5) := mixLine d[3] s2 s3 s4 s5 s1 31
  let (s3, s4, s6) := mixLine d[4] s3 s4 s5 s6 s2 17
  let (s4, s5, s7) := mixLine d[5] s4 s5 s6 s7 s3 28
  let (s5, s6, s8) := mixLine d[6] s5 s6 s7 s8 s4 39
  let (s6, s7, s9) := mixLine d[7] s6 s7 s8 s9 s5 57
  let (s7, s8, s10) := mixLine d[8] s7 s8 s9 s10 s6 55
  let (s8, s9, s11) := mixLine d[9] s8 s9 s10 s11 s7 54
  let (s9, s10, s0) := mixLine d[10] s9 s10 s11 s0 s8 22
  let (s10, s11, s1) := mixLine d[11] s10 s11 s0 s1 s9 46
  #v[s0, s1, s2, s3, s4, s5, s6, s7, s8, s9, s10, s11]

/-- MIX over the first `nb` blocks of `S`, oldest block first (R83). -/
def mixBlocks : Nat → List Byte → Words12 → Except Fault Words12
  | 0, _, h => .ok h
  | nb + 1, S, h => do
    let d ← blockWords (← sliceAt S 0 Config.blockSize)
    mixBlocks nb (S.drop Config.blockSize) (mix d h)

end Sys2Proof.Machine
end

