-- ==== Sys2Proof/Machine/Finalizer.lean ====
section
/-! DEFINITION. The finalization engine: END_PARTIAL and END (spec/42_finalizer.md R110 to R113), and the padded last
block they are given (spec/40_streaming_commands.md R91, R92). -/

namespace Sys2Proof.Machine

/-- END_ROT (R6, R110). -/
def endRot : Vector Nat 12 := #v[44, 15, 34, 21, 38, 33, 10, 13, 38, 53, 42, 54]

/-- Step i of END_PARTIAL: three statements in order; index arithmetic is modulo 12; the word rotated is word i+1
(R110). -/
def endPartialStep (h : Words12) (i : Fin 12) : Words12 :=
  let h := put h (i + 11) (h[i + 11] + h[i + 1])
  let h := put h (i + 2) (h[i + 2] ^^^ h[i + 11])
  put h (i + 1) (rotl64 h[i + 1] endRot[i])

/-- END_PARTIAL: one pass of twelve steps, with no data (R110). -/
def endPartial (h : Words12) : Words12 := steps12.foldl endPartialStep h

/-- One step of END_PARTIAL on the three words it touches, h[i-1], h[i+1] and h[i+2], for the unrolled form
(R111). -/
def endLine (hp hn h2 : Word) (k : Nat) : Word × Word × Word :=
  let hp := hp + hn
  let h2 := h2 ^^^ hp
  let hn := rotl64 hn k
  (hp, hn, h2)

/-- END_PARTIAL unrolled: the twelve lines of R111. -/
def endPartialUnrolled (h : Words12) : Words12 :=
  let (h0, h1, h2, h3) := (h[0], h[1], h[2], h[3])
  let (h4, h5, h6, h7) := (h[4], h[5], h[6], h[7])
  let (h8, h9, h10, h11) := (h[8], h[9], h[10], h[11])
  let (h11, h1, h2) := endLine h11 h1 h2 44
  let (h0, h2, h3) := endLine h0 h2 h3 15
  let (h1, h3, h4) := endLine h1 h3 h4 34
  let (h2, h4, h5) := endLine h2 h4 h5 21
  let (h3, h5, h6) := endLine h3 h5 h6 38
  let (h4, h6, h7) := endLine h4 h6 h7 33
  let (h5, h7, h8) := endLine h5 h7 h8 10
  let (h6, h8, h9) := endLine h6 h8 h9 13
  let (h7, h9, h10) := endLine h7 h9 h10 38
  let (h8, h10, h11) := endLine h8 h10 h11 53
  let (h9, h11, h0) := endLine h9 h11 h0 42
  let (h10, h0, h1) := endLine h10 h0 h1 54
  #v[h0, h1, h2, h3, h4, h5, h6, h7, h8, h9, h10, h11]

/-- The fold of END: the data words are added word by word, wrapping (R112). -/
def foldBlock (d h : Words12) : Words12 := Vector.ofFn fun i : Fin 12 => h[i] + d[i]

/-- END: fold the last block, then exactly three passes (R112, R113). -/
def endNet (d h : Words12) : Words12 := endPartial (endPartial (endPartial (foldBlock d h)))

/-- LAST: the tail of r bytes, 95 - r zero bytes, and the sentinel byte r (R91). -/
def lastBlock (tail : List Byte) : List Byte :=
  tail ++ List.replicate (95 - tail.length) 0 ++ [BitVec.ofNat 8 tail.length]

/-- The padded last block folded into the scratch copy `h`, and words 0 and 1 of the result (R91, R92). -/
def finishLong (tail : List Byte) (h : Words12) : Except Fault (Word × Word) := do
  let d ← blockWords (lastBlock tail)
  let h := endNet d h
  return (h[0], h[1])

end Sys2Proof.Machine
end

