-- ==== Sys2Proof/Machine/Flags.lean ====
section
/-! DEFINITION. The unit stores no flag. The one derived predicate, recomputed whenever a rule names it, is which of
the two regimes holds (spec/10_state.md R27). -/

namespace Sys2Proof.Machine

/-- SHORT_MODE: TOTAL_LENGTH < 192 (R27). -/
def shortMode (s : State) : Bool := decide (s.totalLength.toNat < Config.bufSize)

/-- LONG_MODE: TOTAL_LENGTH ≥ 192 (R27). -/
def longMode (s : State) : Bool := decide (Config.bufSize ≤ s.totalLength.toNat)

end Sys2Proof.Machine
end

