-- ==== Sys2Proof/Machine/ShortPath.lean ====
section
/-! DEFINITION. The short-path engine: SHORT_MIX, SHORT_END and SHORT (spec/43_short_path.md R120 to R133). The four
words h0, h1, h2, h3 are a, b, c, d. -/

namespace Sys2Proof.Machine

/-- SHORT_MIX_ROT with the index of each step (R6, R121). -/
def shortMixSteps : List (Fin 4 × Nat) :=
  [(0, 50), (1, 52), (2, 30), (3, 41), (0, 54), (1, 48), (2, 38), (3, 37), (0, 62), (1, 34), (2, 5), (3, 36)]

/-- A step of SHORT_MIX, with i taken modulo 4 and its rotate amount: rotate, add the next word, fold into the word
two behind (R121). -/
def shortMixStep (h : Words4) (step : Fin 4 × Nat) : Words4 :=
  let z := step.1
  let x := z + 2
  let y := z + 3
  let h := put h x (rotl64 h[x] step.2)
  let h := put h x (h[x] + h[y])
  put h z (h[z] ^^^ h[x])

/-- SHORT_MIX: twelve steps (R121). -/
def shortMix (h : Words4) : Words4 := shortMixSteps.foldl shortMixStep h

/-- SHORT_END_ROT with the index, modulo 4, of each of the eleven steps (R6, R124; spec/90_conflicts.md C1). -/
def shortEndSteps : List (Fin 4 × Nat) :=
  [(0, 15), (1, 52), (2, 26), (3, 51), (0, 28), (1, 9), (2, 47), (3, 54), (0, 32), (1, 25), (2, 63)]

/-- A step of SHORT_END, with i taken modulo 4 and its rotate amount: fold, rotate the word just folded in, add it
(R124). -/
def shortEndStep (h : Words4) (step : Fin 4 × Nat) : Words4 :=
  let x := step.1 + 3
  let y := step.1 + 2
  let h := put h x (h[x] ^^^ h[y])
  let h := put h y (rotl64 h[y] step.2)
  put h x (h[x] + h[y])

/-- SHORT_END: eleven steps (R124). -/
def shortEnd (h : Words4) : Words4 := shortEndSteps.foldl shortEndStep h

/-- A line of R122: rotate `x`, add `y` to it, fold it into `z`. The answer is the new x and z. -/
def shortMixLine (x y z : Word) (k : Nat) : Word × Word :=
  let x := rotl64 x k
  let x := x + y
  let z := z ^^^ x
  (x, z)

/-- SHORT_MIX unrolled: the twelve lines of R122. -/
def shortMixUnrolled (h : Words4) : Words4 :=
  let (h0, h1, h2, h3) := (h[0], h[1], h[2], h[3])
  let (h2, h0) := shortMixLine h2 h3 h0 50
  let (h3, h1) := shortMixLine h3 h0 h1 52
  let (h0, h2) := shortMixLine h0 h1 h2 30
  let (h1, h3) := shortMixLine h1 h2 h3 41
  let (h2, h0) := shortMixLine h2 h3 h0 54
  let (h3, h1) := shortMixLine h3 h0 h1 48
  let (h0, h2) := shortMixLine h0 h1 h2 38
  let (h1, h3) := shortMixLine h1 h2 h3 37
  let (h2, h0) := shortMixLine h2 h3 h0 62
  let (h3, h1) := shortMixLine h3 h0 h1 34
  let (h0, h2) := shortMixLine h0 h1 h2 5
  let (h1, h3) := shortMixLine h1 h2 h3 36
  #v[h0, h1, h2, h3]

/-- A line of R125: fold `y` into `x`, rotate `y`, add it to `x`. The answer is the new x and y. -/
def shortEndLine (x y : Word) (k : Nat) : Word × Word :=
  let x := x ^^^ y
  let y := rotl64 y k
  let x := x + y
  (x, y)

/-- SHORT_END unrolled: the eleven lines of R125. -/
def shortEndUnrolled (h : Words4) : Words4 :=
  let (h0, h1, h2, h3) := (h[0], h[1], h[2], h[3])
  let (h3, h2) := shortEndLine h3 h2 15
  let (h0, h3) := shortEndLine h0 h3 52
  let (h1, h0) := shortEndLine h1 h0 26
  let (h2, h1) := shortEndLine h2 h1 51
  let (h3, h2) := shortEndLine h3 h2 28
  let (h0, h3) := shortEndLine h0 h3 9
  let (h1, h0) := shortEndLine h1 h0 47
  let (h2, h1) := shortEndLine h2 h1 54
  let (h3, h2) := shortEndLine h3 h2 32
  let (h0, h3) := shortEndLine h0 h3 25
  let (h1, h0) := shortEndLine h1 h0 63
  #v[h0, h1, h2, h3]

/-- Add `w` to word `i`, wrapping. -/
def addTo (h : Words4) (i : Fin 4) (w : Word) : Words4 := put h i (h[i] + w)

/-- Seeding: a, b from the seeds, c, d from the constant (R126). -/
def shortSeed (seed1 seed2 : Word) : Words4 := #v[seed1, seed2, scConst, scConst]

/-- Add the words at `p` and `p + 8` to c and d, and mix: the first half of a chunk, and the half chunk (R127). -/
def shortAbsorb16 (msg : List Byte) (p : Nat) (h : Words4) : Except Fault Words4 := do
  let h := addTo h 2 (← le64At msg p)
  let h := addTo h 3 (← le64At msg (p + 8))
  return shortMix h

/-- The `n` complete chunks from offset `p` on (R127). -/
def shortChunks (msg : List Byte) : Nat → Nat → Words4 → Except Fault Words4
  | 0, _, h => .ok h
  | n + 1, p, h => do
    let h ← shortAbsorb16 msg p h
    let h := addTo h 0 (← le64At msg (p + 16))
    let h := addTo h 1 (← le64At msg (p + 24))
    shortChunks msg n (p + 32) h

/-- Length fold: the message length, shifted into the top byte, is added to d (R128). -/
def shortLength (len : Nat) (h : Words4) : Words4 := addTo h 3 (BitVec.ofNat 64 len <<< 56)

/-! The tail table of R129, one definition a row: its statement, then the row it continues with. -/

def tailRow1 (t : List Byte) (h : Words4) : Except Fault Words4 := do
  return addTo h 2 (← shiftedByteAt t 0 0)
def tailRow2 (t : List Byte) (h : Words4) : Except Fault Words4 := do
  tailRow1 t (addTo h 2 (← shiftedByteAt t 1 8))
def tailRow3 (t : List Byte) (h : Words4) : Except Fault Words4 := do
  tailRow2 t (addTo h 2 (← shiftedByteAt t 2 16))
def tailRow4 (t : List Byte) (h : Words4) : Except Fault Words4 := do
  return addTo h 2 (← le32At t 0)
def tailRow5 (t : List Byte) (h : Words4) : Except Fault Words4 := do
  tailRow4 t (addTo h 2 (← shiftedByteAt t 4 32))
def tailRow6 (t : List Byte) (h : Words4) : Except Fault Words4 := do
  tailRow5 t (addTo h 2 (← shiftedByteAt t 5 40))
def tailRow7 (t : List Byte) (h : Words4) : Except Fault Words4 := do
  tailRow6 t (addTo h 2 (← shiftedByteAt t 6 48))
def tailRow8 (t : List Byte) (h : Words4) : Except Fault Words4 := do
  return addTo h 2 (← le64At t 0)
def tailRow9 (t : List Byte) (h : Words4) : Except Fault Words4 := do
  tailRow8 t (addTo h 3 (← shiftedByteAt t 8 0))
def tailRow10 (t : List Byte) (h : Words4) : Except Fault Words4 := do
  tailRow9 t (addTo h 3 (← shiftedByteAt t 9 8))
def tailRow11 (t : List Byte) (h : Words4) : Except Fault Words4 := do
  tailRow10 t (addTo h 3 (← shiftedByteAt t 10 16))
def tailRow12 (t : List Byte) (h : Words4) : Except Fault Words4 := do
  let h := addTo h 3 (← le32At t 8)
  return addTo h 2 (← le64At t 0)
def tailRow13 (t : List Byte) (h : Words4) : Except Fault Words4 := do
  tailRow12 t (addTo h 3 (← shiftedByteAt t 12 32))
def tailRow14 (t : List Byte) (h : Words4) : Except Fault Words4 := do
  tailRow13 t (addTo h 3 (← shiftedByteAt t 13 40))
def tailRow15 (t : List Byte) (h : Words4) : Except Fault Words4 := do
  tailRow14 t (addTo h 3 (← shiftedByteAt t 14 48))

/-- Zero remainder: the constant is added to c and to d (R131). -/
def tailZero (h : Words4) : Words4 := addTo (addTo h 2 scConst) 3 scConst

/-- The tail fold: the row of R129 for the number of unread bytes `t`, or R131 if there is none. There is no row for
16 or more bytes: SHORT leaves at most 15 unread (R127), and such a tail stops. -/
def shortTail (t : List Byte) (h : Words4) : Except Fault Words4 :=
  match t.length with
  | 0 => .ok (tailZero h)
  | 1 => tailRow1 t h
  | 2 => tailRow2 t h
  | 3 => tailRow3 t h
  | 4 => tailRow4 t h
  | 5 => tailRow5 t h
  | 6 => tailRow6 t h
  | 7 => tailRow7 t h
  | 8 => tailRow8 t h
  | 9 => tailRow9 t h
  | 10 => tailRow10 t h
  | 11 => tailRow11 t h
  | 12 => tailRow12 t h
  | 13 => tailRow13 t h
  | 14 => tailRow14 t h
  | 15 => tailRow15 t h
  | _ => .error .beyondSequence

/-- The phases of SHORT before SHORT_END: seeding, chunks, half chunk, length fold, tail fold (R126 to R131). -/
def shortFold (msg : List Byte) (seed1 seed2 : Word) : Except Fault Words4 := do
  let len := msg.length
  let n := len / Config.shortChunk
  let h ← shortChunks msg n 0 (shortSeed seed1 seed2)
  let p := Config.shortChunk * n
  let r := len % Config.shortChunk
  if 16 ≤ r then
    let h ← shortAbsorb16 msg p h
    shortTail (← sliceAt msg (p + 16) (r - 16)) (shortLength len h)
  else
    shortTail (← sliceAt msg p r) (shortLength len h)

/-- SHORT: hash a whole message of less than 192 bytes (R120, R132). -/
def short (msg : List Byte) (seed1 seed2 : Word) : Except Fault (Word × Word) := do
  let h := shortEnd (← shortFold msg seed1 seed2)
  return (h[0], h[1])

end Sys2Proof.Machine
end

