-- ==== Sys2Proof/Machine/Streaming.lean ====
section
/-! DEFINITION. The streaming hasher state machine: the four commands and the two internal procedures behind them,
block dispatch and Finalize (spec/40_streaming_commands.md R80 to R93). -/

namespace Sys2Proof.Machine

/-- INIT (R80): all twelve words of STATE seeded, both counters 0, BUF not written. -/
def execInit (seed1 seed2 : Word) (s : State) : Host.Outcome State Fault Refusal :=
  .next ((((s.setState (seeded seed1 seed2)).setTotalLength 0).setBufferedLength 0).emit okResponse)

/-- The buffer-only case of APPEND: the payload is copied to the offsets from BUFFERED_LENGTH upward; STATE is not
written (R82). -/
def appendBuffered (payload : List Byte) (s : State) : Except Fault State := do
  let bl := s.bufferedLength.toNat
  let buf ← writeBufBytes s.buf bl payload
  return (s.setBuf buf).setBufferedLength (BitVec.ofNat 8 (bl + payload.length))

/-- The dispatch case of APPEND: every full block of the buffered bytes followed by the payload is mixed, oldest
first, and the leftover is copied to the offsets from 0 upward (R83). -/
def appendDispatch (payload : List Byte) (s : State) : Except Fault State := do
  let S := (← readBufBytes s 0 s.bufferedLength.toNat) ++ payload
  let nb := S.length / Config.blockSize
  let r := S.length % Config.blockSize
  let st ← mixBlocks nb S s.state
  let buf ← writeBufBytes s.buf 0 (← sliceAt S (Config.blockSize * nb) r)
  return ((s.setState st).setBuf buf).setBufferedLength (BitVec.ofNat 8 r)

/-- Which case an APPEND is: below 192 bytes in all, or not (R81). -/
def absorb (payload : List Byte) (s : State) : Except Fault State :=
  if s.bufferedLength.toNat + payload.length < Config.bufSize then appendBuffered payload s
  else appendDispatch payload s

/-- APPEND (R81, R85): the bytes are absorbed and counted. -/
def execAppend (payload : List Byte) (s : State) : Host.Outcome State Fault Refusal :=
  toOutcome do
    let s' ← absorb payload s
    return (s'.setTotalLength (addToTotal s.totalLength payload.length)).emit okResponse

/-- The short path of Finalize: SHORT over the buffered bytes, seeded from STATE[0] and STATE[1] (R89). -/
def finalizeShort (s : State) : Except Fault (Word × Word) := do
  let msg ← readBufBytes s 0 s.bufferedLength.toNat
  short msg s.state[0] s.state[1]

/-- The long path of Finalize: on a scratch copy of STATE, a pending full block is mixed first, then the padded last
block is folded in (R90, R91, R92). -/
def finalizeLong (s : State) : Except Fault (Word × Word) := do
  let r := s.bufferedLength.toNat
  if Config.blockSize ≤ r then
    let d ← blockWords (← readBufBytes s 0 Config.blockSize)
    finishLong (← readBufBytes s Config.blockSize (r - Config.blockSize)) (mix d s.state)
  else
    finishLong (← readBufBytes s 0 r) s.state

/-- Finalize: the mode is selected by TOTAL_LENGTH; nothing is written (R88). -/
def finalize (s : State) : Except Fault (Word × Word) :=
  if shortMode s then finalizeShort s else finalizeLong s

/-- DIGEST128 (R87): both words of the digest; no architectural state is written. -/
def execDigest128 (s : State) : Host.Outcome State Fault Refusal :=
  toOutcome do
    let (w0, w1) ← finalize s
    return s.emit ⟨.ok, w0, w1⟩

/-- DIGEST64 (R93): word 0 of the same computation; no architectural state is written. -/
def execDigest64 (s : State) : Host.Outcome State Fault Refusal :=
  toOutcome do
    let (w0, _) ← finalize s
    return s.emit ⟨.ok, w0, 0⟩

/-- `Digest(s1, s2, X)`: the digest as a closed function of the seeds and the stream (R97). No command calls it; it is
what the commands together must compute. -/
def digestOf (seed1 seed2 : Word) (X : List Byte) : Except Fault (Word × Word) :=
  if X.length < Config.bufSize then short X seed1 seed2
  else do
    let nb := X.length / Config.blockSize
    let h ← mixBlocks nb X (seeded seed1 seed2)
    finishLong (← sliceAt X (Config.blockSize * nb) (X.length % Config.blockSize)) h

end Sys2Proof.Machine
end

