-- ==== Sys2Proof/Machine/Dispatch.lean ====
section
/-! DEFINITION. The meaning of every command, one arm each. -/

namespace Sys2Proof.Machine

def exec (i : Instr) (s : State) : Host.Outcome State Fault Refusal :=
  match i with
  | .init seed1 seed2 => Sys2Proof.Machine.execInit seed1 seed2 s
  | .append payload => Sys2Proof.Machine.execAppend payload s
  | .digest64 => Sys2Proof.Machine.execDigest64 s
  | .digest128 => Sys2Proof.Machine.execDigest128 s

end Sys2Proof.Machine
end

