-- ==== Sys2Proof/Machine/Step.lean ====
section
/-! DEFINITION. One step of the unit: it takes the packet at the head of its command input, performs it to
completion, emits one response (spec/10_state.md R29, spec/30_encoding.md R60). -/

namespace Sys2Proof.Machine

/-- One step. A whole legal packet is consumed and performed; an illegal header is consumed and answered
(spec/60_exceptions.md R146); while no whole packet has arrived the unit holds, with nothing changed and nothing
emitted (R151; log entry 2). -/
def step (s : State) : Host.Outcome State Fault Refusal :=
  match decode s.input with
  | .instr i rest => exec i (s.setInput rest)
  | .illegalOpcode rest => .next (raiseFault .illegalOpcode (s.setInput rest))
  | .illegalField rest => .next (raiseFault .illegalField (s.setInput rest))
  | .incomplete => .next s

/-- `s` with the instruction whose bits are `w` as the next packet of the command input, ahead of what was there
(log entry 1). -/
def State.withFetchWord (s : State) (nbits w : Nat) : State := s.setInput (tableBytes nbits w ++ s.input)

end Sys2Proof.Machine
end

