-- ==== Sys2Proof/Machine/Assembler.lean ====
section
/-! DEFINITION. The assembler's notation for commands (spec/30_encoding.md R71 to R73): a line of text, what it stands
for, and the commands it assembles to. Text is taken as a list of characters. -/

namespace Sys2Proof.Machine

/-- One line of the notation: the four commands and the three pseudo-instructions. -/
inductive AsmLine where
  | init (seed1 seed2 : Word)
  | append (bytes : List Byte)
  | digest64
  | digest128
  /-- `init0` (R72). -/
  | init0
  /-- `hash64 s1, s2, <bytes>` (R73). -/
  | hash64 (seed1 seed2 : Word) (bytes : List Byte)
  /-- `hash128 s1, s2, <bytes>` (R73). -/
  | hash128 (seed1 seed2 : Word) (bytes : List Byte)
deriving DecidableEq, Repr

/-- Cut a message into `n` pieces of the greatest length and what is left: at least one piece, also for the empty
message. R73 asks only that no piece is longer than LEN can count; that every piece but the last has the greatest length
is the model's choice (DESIGN CHOICE, log entry 15). -/
def cutMessage : Nat → List Byte → List (List Byte)
  | 0, bs => [bs]
  | n + 1, bs => bs.take Config.lenMax :: cutMessage n (bs.drop Config.lenMax)

/-- The APPENDs that carry a message in order, each of at most 16777215 bytes (R73). -/
def appendsOf (bytes : List Byte) : List Instr :=
  (cutMessage ((bytes.length - 1) / Config.lenMax) bytes).map .append

/-- The commands a line stands for (R71, R72, R73). -/
def AsmLine.expand : AsmLine → List Instr
  | .init s1 s2 => [.init s1 s2]
  | .append bytes => [.append bytes]
  | .digest64 => [.digest64]
  | .digest128 => [.digest128]
  | .init0 => [.init 0 0]
  | .hash64 s1 s2 bytes => .init s1 s2 :: (appendsOf bytes ++ [.digest64])
  | .hash128 s1 s2 bytes => .init s1 s2 :: (appendsOf bytes ++ [.digest128])

/-! ### Reading a line of text -/

def isBlank (c : Char) : Bool := c == ' ' || c == '\t'

def skipBlanks (cs : List Char) : List Char := cs.dropWhile isBlank

def trimBlanks (cs : List Char) : List Char := (skipBlanks (skipBlanks cs).reverse).reverse

/-- The value of a decimal or hexadecimal digit. -/
def digitValue (c : Char) : Option Nat :=
  if '0' ≤ c ∧ c ≤ '9' then some (c.toNat - '0'.toNat)
  else if 'a' ≤ c ∧ c ≤ 'f' then some (c.toNat - 'a'.toNat + 10)
  else if 'A' ≤ c ∧ c ≤ 'F' then some (c.toNat - 'A'.toNat + 10)
  else none

/-- The digits that follow a number already read. -/
def readDigits (base : Nat) : Nat → List Char → Option Nat
  | v, [] => some v
  | v, c :: cs =>
    match digitValue c with
    | some d => if d < base then readDigits base (base * v + d) cs else none
    | none => none

/-- An integer, decimal or `0x` hexadecimal (R71). -/
def readInt : List Char → Option Nat
  | [] => none
  | ['0', 'x'] => none
  | '0' :: 'x' :: cs => readDigits 16 0 cs
  | cs => readDigits 10 0 cs

/-- An integer that is a word. -/
def readWord (cs : List Char) : Option Word := do
  let v ← readInt (trimBlanks cs)
  if v < 2 ^ 64 then some (BitVec.ofNat 64 v) else none

/-- The text before and after the first `mark`, if it has one. -/
def splitAtMark (mark : Char) : List Char → Option (List Char × List Char)
  | [] => none
  | c :: cs =>
    if c = mark then some ([], cs)
    else match splitAtMark mark cs with
      | some (before, after) => some (c :: before, after)
      | none => none

/-- The words of a text, cut at blanks; `word` holds, reversed, the characters of the word being read. -/
def cutWords : List Char → List Char → List (List Char)
  | word, [] => if word.isEmpty then [] else [word.reverse]
  | word, c :: cs =>
    if isBlank c then
      if word.isEmpty then cutWords [] cs else word.reverse :: cutWords [] cs
    else cutWords (c :: word) cs

/-- A byte written as two hexadecimal digits (R71). -/
def readHexByte : List Char → Option Byte
  | [hi, lo] =>
    match readDigits 16 0 [hi, lo] with
    | some v => some (BitVec.ofNat 8 v)
    | none => none
  | _ => none

/-- The ASCII code of a character; a character outside ASCII has none. -/
def asciiCode (c : Char) : Option Byte := if c.toNat < 128 then some (BitVec.ofNat 8 c.toNat) else none

/-- Every answer, or none if one is missing. -/
def allSome {α β : Type} (f : α → Option β) : List α → Option (List β)
  | [] => some []
  | x :: xs =>
    match f x, allSome f xs with
    | some y, some ys => some (y :: ys)
    | _, _ => none

/-- The operand of `pat(`: two integers and the closing parenthesis (R71). -/
def readPat (cs : List Char) : Option (List Byte) := do
  let (n, more) ← splitAtMark ',' cs
  let (off, after) ← splitAtMark ')' more
  let n ← readInt (trimBlanks n)
  let off ← readInt (trimBlanks off)
  if (trimBlanks after).isEmpty then some (pat n off) else none

/-- The three forms of a byte sequence: quoted ASCII, `pat(n, off)`, or bytes in hexadecimal, none at all among them
(R71). -/
def readByteSeq (cs : List Char) : Option (List Byte) :=
  match trimBlanks cs with
  | '"' :: text =>
    match splitAtMark '"' text with
    | some (quoted, after) => if (trimBlanks after).isEmpty then allSome asciiCode quoted else none
    | none => none
  | 'p' :: 'a' :: 't' :: '(' :: args => readPat args
  | hex => allSome readHexByte (cutWords [] hex)

/-- The line without its comment; a `#` between quotation marks starts none (DESIGN CHOICE, log entry 10). -/
def stripComment : Bool → List Char → List Char
  | _, [] => []
  | quoted, c :: cs =>
    if c = '"' then c :: stripComment (!quoted) cs
    else if c = '#' && !quoted then []
    else c :: stripComment quoted cs

/-- The two seeds of `init`. -/
def readSeeds (cs : List Char) : Option (Word × Word) := do
  let (first, second) ← splitAtMark ',' cs
  let s1 ← readWord first
  let s2 ← readWord second
  some (s1, s2)

/-- The two seeds and the bytes of a one-shot form (R73). -/
def readOneShot (cs : List Char) : Option (Word × Word × List Byte) := do
  let (first, more) ← splitAtMark ',' cs
  let (second, bytes) ← splitAtMark ',' more
  let s1 ← readWord first
  let s2 ← readWord second
  let bs ← readByteSeq bytes
  some (s1, s2, bs)

/-- The operands of a mnemonic, which is in lower case. -/
def readOperands (mnemonic : String) (cs : List Char) : Option AsmLine :=
  if mnemonic = "init" then (readSeeds cs).map fun p => .init p.1 p.2
  else if mnemonic = "append" then (readByteSeq cs).map .append
  else if mnemonic = "digest64" then (if (trimBlanks cs).isEmpty then some .digest64 else none)
  else if mnemonic = "digest128" then (if (trimBlanks cs).isEmpty then some .digest128 else none)
  else if mnemonic = "init0" then (if (trimBlanks cs).isEmpty then some .init0 else none)
  else if mnemonic = "hash64" then (readOneShot cs).map fun p => .hash64 p.1 p.2.1 p.2.2
  else if mnemonic = "hash128" then (readOneShot cs).map fun p => .hash128 p.1 p.2.1 p.2.2
  else none

/-- The commands of one line of text: none for a line that holds no command; the whole line is refused if it is not of
a form of R71 to R73, or if a command of it has no encoding (spec/93_implementation_defined.md U9). Mnemonics are
case-insensitive. -/
def assembleLine (line : List Char) : Option (List Instr) :=
  match trimBlanks (stripComment false line) with
  | [] => some []
  | text =>
    let mnemonic := String.ofList ((text.takeWhile fun c => !isBlank c).map Char.toLower)
    match readOperands mnemonic (text.dropWhile fun c => !isBlank c) with
    | some l => if l.expand.all Instr.wellFormed then some l.expand else none
    | none => none

/-- The commands of a text, one command a line (R71). -/
def assemble (lines : List (List Char)) : Option (List Instr) :=
  (allSome assembleLine lines).map List.flatten

end Sys2Proof.Machine
end

