-- ==== Sys2Proof/Machine/HostInterface.lean ====
section
/-! DEFINITION. What the outside world can do to a unit (spec/70_reset_and_hazards.md R160, R170, R171): supply bytes,
reset it, give it a list of commands; and several units beside each other (spec/60_exceptions.md R149). `step` calls
none of this. -/

namespace Sys2Proof.Machine

/-- The host supplies more bytes on the command input, at any pace (R170). They land between two steps. -/
def State.supply (s : State) (bytes : List Byte) : State := s.setInput (s.input ++ bytes)

/-- The host resets the unit (R160): everything is as right after reset, and what had arrived of a packet is
discarded; responses already emitted stay emitted (log entry 6). -/
def State.applyReset (s : State) : Config.ResetKind → State
  | .only => { State.reset with output := s.output }

/-- A run: a finite list of commands performed in order, each one atomic step (R171). -/
def runCommands : List Instr → State → Host.Outcome State Fault Refusal
  | [], s => .next s
  | i :: is, s =>
    match exec i s with
    | .next s' => runCommands is s'
    | .fault f => .fault f
    | .refused r => .refused r

/-- The byte stream of a list of commands (R60, R76). -/
def encodeAll (is : List Instr) : List Byte := is.flatMap encode

/-- Any number of units, each with its own state, input and output (R149). -/
abbrev Units := List State

/-- Unit `k` of several takes one step; there is no unit beyond the last. -/
def Units.step (us : Units) (k : Nat) : Host.Outcome Units Fault Refusal :=
  match us[k]? with
  | none => .next us
  | some s =>
    match Machine.step s with
    | .next s' => .next (us.set k s')
    | .fault f => .fault f
    | .refused r => .refused r

end Sys2Proof.Machine
end

