-- ==== Sys2Proof/Safety.lean ====
section
/-! DEFINITION. The terms claims are stated in: what BUF holds, the invariants of spec/10_state.md R26, and what it is
for a step to be safe. -/

namespace Sys2Proof.Machine

/-- The valid region `BUF[0 .. BUFFERED_LENGTH)` holds exactly `bytes`, and BUFFERED_LENGTH is one of its reachable
values, 0 to 191 (R23, R24). -/
def State.Holds (s : State) (bytes : List Byte) : Prop :=
  s.bufferedLength.toNat = bytes.length ∧ bytes.length < Config.bufSize ∧
    ∀ a, a < bytes.length → s.buf.read a = bytes[a]?

/-- The architectural state of two states is the same (spec/10_state.md: STATE, BUF, TOTAL_LENGTH,
BUFFERED_LENGTH). -/
def State.SameArch (s t : State) : Prop :=
  t.state = s.state ∧ t.buf = s.buf ∧ t.totalLength = s.totalLength ∧ t.bufferedLength = s.bufferedLength

/-- The invariants that hold between commands, as far as the state alone can show them: items 1 to 4 of R26, with
every offset of the valid region holding a byte, and BUF in its canonical form. -/
structure State.Inv (s : State) : Prop where
  /-- BUF is in canonical form. -/
  bufWf : s.buf.wf = true
  /-- Every offset of the valid region holds a byte (R23). -/
  bufValid : ∀ a, a < s.bufferedLength.toNat → (s.buf.read a).isSome = true
  /-- Item 1. -/
  bufferedBound : s.bufferedLength.toNat ≤ 191
  /-- Item 2. -/
  totalBound : s.bufferedLength.toNat ≤ s.totalLength.toNat
  /-- Item 3: in SHORT_MODE every byte is still buffered. -/
  shortBuffered : s.totalLength.toNat < Config.bufSize → s.bufferedLength.toNat = s.totalLength.toNat
  /-- Item 3: in SHORT_MODE STATE is still the seeded pattern of two seeds. -/
  shortSeeded : s.totalLength.toNat < Config.bufSize → s.state = seeded s.state[0] s.state[1]
  /-- Item 4: in LONG_MODE with the counter not saturated, whole blocks have been mixed. -/
  longBlocks : Config.bufSize ≤ s.totalLength.toNat → s.totalLength.toNat < Config.totalMax →
    (s.totalLength.toNat - s.bufferedLength.toNat) % Config.blockSize = 0
  /-- Item 4: in LONG_MODE with the counter not saturated, at least two blocks have been mixed. -/
  longDispatched : Config.bufSize ≤ s.totalLength.toNat → s.totalLength.toNat < Config.totalMax →
    Config.bufSize ≤ s.totalLength.toNat - s.bufferedLength.toNat

/-- A step is safe if it gives a next state: it neither reads something that has no value nor is refused. -/
def State.Safe (s : State) : Prop := ∃ t, step s = .next t

end Sys2Proof.Machine
end

