-- ==== Sys2Proof/Certificates/Slice0/Obligations.lean ====
section
/-! DEFINITION. The statements made of the model, for the provers. Each docstring names the rule of spec/ it
formalises. `{ s with output := s.output ++ [r] }` is the state `s` with the one response `r` emitted and everything
else, BUF included, unchanged. -/

open Sys2Proof Sys2Proof.Machine

/-! ### Reset -/

/-- R31, R33: STATE and the two counters after reset. -/
def Obligations.ResetValues : Prop :=
  (∀ i : Fin 12, State.reset.state[i] = if i.val % 3 = 2 then 0xdeadbeefdeadbeef else 0) ∧
  State.reset.totalLength = 0 ∧ State.reset.bufferedLength = 0 ∧ shortMode State.reset = true

/-- R161, which the spec marks as its own inference ('[derived: from rule R160 and ...]'): DIGEST64 as the first
command after reset, as its four bytes on the input. -/
def Obligations.KnownAnswerAfterReset : Prop :=
  step { State.reset with input := [0x03, 0x00, 0x00, 0x00] } =
    .next { State.reset with output := [⟨.ok, 0x232706fc6bf50919, 0⟩] }

/-- R160 with the model's choice of log entry 6: whatever was in progress, the reset event leaves every field as right
after reset, but for the responses already emitted. -/
def Obligations.ResetEventDiscardsEverythingInProgress : Prop :=
  ∀ (s : State) (k : Config.ResetKind),
    State.reset.SameArch (s.applyReset k) ∧ (s.applyReset k).input = [] ∧ (s.applyReset k).output = s.output

/-! ### BUF -/

/-- R23, R46 with the model's choice of log entry 3: a read of BUF has a value at an offset inside the valid region
that holds a byte, and nowhere else. -/
def Obligations.BufReadsHaveValuesInValidRegionOnly : Prop :=
  ∀ (s : State) (a : Nat) (b : Byte),
    readBufByte s a = .ok b ↔ a < 192 ∧ a < s.bufferedLength.toNat ∧ s.buf.read a = some b

/-! ### INIT -/

/-- R80: INIT completes in every state; all twelve words are seeded, both counters are 0, BUF is not written. -/
def Obligations.InitSeedsStateAndZeroesCounters : Prop :=
  (∀ (seed1 seed2 : Word) (s : State), ∃ t, exec (.init seed1 seed2) s = .next t ∧
    (∀ i : Fin 12, t.state[i] =
      if i.val % 3 = 0 then seed1 else if i.val % 3 = 1 then seed2 else 0xdeadbeefdeadbeef) ∧
    t.totalLength = 0 ∧ t.bufferedLength = 0 ∧ t.buf = s.buf ∧ t.input = s.input ∧
    t.output = s.output ++ [⟨.ok, 0, 0⟩]) ∧
  (∀ (s : State) (h : Header) (rest : List Byte), s.input = leBytes 4 h.toNat ++ rest → h.opc = 0x01 → h.arg ≠ 0 →
    step s = .next { s with input := rest, output := s.output ++ [⟨.illegalField, 0, 0⟩] })

/-- R72: `init0` stands for `init 0, 0`, which as the first command after reset changes nothing but the output. -/
def Obligations.Init0AfterResetChangesNothing : Prop :=
  AsmLine.init0.expand = [.init 0 0] ∧
  exec (.init 0 0) State.reset = .next { State.reset with output := [⟨.ok, 0, 0⟩] }

/-! ### APPEND -/

/-- R82: below 192 bytes in all, the payload is copied behind the buffered bytes and STATE is not written. -/
def Obligations.AppendBelowThresholdCopiesToBuf : Prop :=
  ∀ (payload : List Byte) (s : State), s.bufferedLength.toNat + payload.length < 192 →
    ∃ t, exec (.append payload) s = .next t ∧
      t.state = s.state ∧
      t.bufferedLength.toNat = s.bufferedLength.toNat + payload.length ∧
      t.totalLength.toNat = min (s.totalLength.toNat + payload.length) (2 ^ 64 - 1) ∧
      (∀ j, j < payload.length → t.buf.read (s.bufferedLength.toNat + j) = payload[j]?) ∧
      (∀ a, (a < s.bufferedLength.toNat ∨ s.bufferedLength.toNat + payload.length ≤ a) →
        t.buf.read a = s.buf.read a) ∧
      t.input = s.input ∧ t.output = s.output ++ [⟨.ok, 0, 0⟩]

/-- From R83: from 192 bytes in all, every full block of the buffered bytes followed by the payload is mixed into STATE,
oldest first, and the leftover goes to offset 0 upward. That every offset behind the leftover reads as before is the
model's choice (log entry 3; U3 leaves those bytes any value), and so is what it says of a payload longer than LEN can
count (log entry 11). -/
def Obligations.AppendFromThresholdMixesEveryFullBlock : Prop :=
  ∀ (payload bytes : List Byte) (s : State), s.Holds bytes → 192 ≤ bytes.length + payload.length →
    let S := bytes ++ payload
    let nb := S.length / 96
    let r := S.length % 96
    ∃ t, exec (.append payload) s = .next t ∧
      t.state = (List.range nb).foldl (fun st k => mix (wordsOf ((S.drop (96 * k)).take 96)) st) s.state ∧
      t.bufferedLength.toNat = r ∧
      t.totalLength.toNat = min (s.totalLength.toNat + payload.length) (2 ^ 64 - 1) ∧
      (∀ j, j < r → t.buf.read j = S[96 * nb + j]?) ∧
      (∀ a, r ≤ a → t.buf.read a = s.buf.read a) ∧
      t.input = s.input ∧ t.output = s.output ++ [⟨.ok, 0, 0⟩]

/-- R84, which the spec marks as its own inference ('[derived: from rule R81, rule R82 and rule R85]'): a zero-length
APPEND changes nothing but the output. -/
def Obligations.ZeroLengthAppendChangesNothing : Prop :=
  ∀ s : State, s.bufferedLength.toNat ≤ 191 →
    exec (.append []) s = .next { s with output := s.output ++ [⟨.ok, 0, 0⟩] }

/-- From R85: every APPEND adds its length to TOTAL_LENGTH, saturating; and what it does otherwise does not depend on
TOTAL_LENGTH, which the spec marks as its own inference ('[derived: from rule R82 and rule R83]'). For a payload longer
than LEN can count it says what log entry 11 says. -/
def Obligations.AppendCountsBytesWithSaturation : Prop :=
  (∀ (payload : List Byte) (s t : State), exec (.append payload) s = .next t →
    t.totalLength.toNat = min (s.totalLength.toNat + payload.length) (2 ^ 64 - 1)) ∧
  (∀ (payload : List Byte) (s t : State) (total : BitVec 64), exec (.append payload) s = .next t →
    ∃ u, exec (.append payload) { s with totalLength := total } = .next u ∧
      u.state = t.state ∧ u.buf = t.buf ∧ u.bufferedLength = t.bufferedLength)

/-! ### DIGEST64 and DIGEST128 -/

/-- R89: with TOTAL_LENGTH below 192 both digests are SHORT over the buffered bytes, seeded from STATE[0] and
STATE[1]; nothing is written; between commands those are all the bytes counted, and the two words are the seeds. -/
def Obligations.DigestBelowThresholdIsShort : Prop :=
  ∀ (s : State) (bytes : List Byte), s.Holds bytes → s.totalLength.toNat < 192 →
    ∃ w0 w1, short bytes s.state[0] s.state[1] = .ok (w0, w1) ∧
      exec .digest128 s = .next { s with output := s.output ++ [⟨.ok, w0, w1⟩] } ∧
      exec .digest64 s = .next { s with output := s.output ++ [⟨.ok, w0, 0⟩] } ∧
      (s.Inv → bytes.length = s.totalLength.toNat ∧ s.state = seeded s.state[0] s.state[1])

/-- R90, R91, R92: with TOTAL_LENGTH 192 or more a pending full block is mixed into a scratch copy, the padded last
block with its sentinel is folded in by END, and words 0 and 1 are the digest; nothing is written. -/
def Obligations.DigestFromThresholdFinalizesPaddedBlock : Prop :=
  ∀ (s : State) (bytes : List Byte), s.Holds bytes → 192 ≤ s.totalLength.toNat →
    let h := if 96 ≤ bytes.length then mix (wordsOf (bytes.take 96)) s.state else s.state
    let tail := if 96 ≤ bytes.length then bytes.drop 96 else bytes
    let last := tail ++ List.replicate (95 - tail.length) 0 ++ [BitVec.ofNat 8 tail.length]
    let w := endNet (wordsOf last) h
    last.length = 96 ∧
      exec .digest128 s = .next { s with output := s.output ++ [⟨.ok, w[0], w[1]⟩] } ∧
      exec .digest64 s = .next { s with output := s.output ++ [⟨.ok, w[0], 0⟩] }

/-- From R93: in the same state DIGEST64 answers W0 of DIGEST128 and a W1 of 0, and changes nothing else; it completes
where DIGEST128 does. -/
def Obligations.Digest64IsLowWordOfDigest128 : Prop :=
  (∀ s t : State, exec .digest128 s = .next t → ∃ w0 w1,
    t = { s with output := s.output ++ [⟨.ok, w0, w1⟩] } ∧
    exec .digest64 s = .next { s with output := s.output ++ [⟨.ok, w0, 0⟩] }) ∧
  (∀ s t : State, exec .digest64 s = .next t → ∃ u, exec .digest128 s = .next u)

/-- R95: a digest writes no architectural state, answers the same when asked again, and changes nothing of what any
later command does. -/
def Obligations.DigestsArePeeks : Prop :=
  ∀ (d : Instr), (d = .digest64 ∨ d = .digest128) → ∀ s t : State, exec d s = .next t →
    ∃ r, t = { s with output := s.output ++ [r] } ∧ r.status = .ok ∧
      exec d t = .next { t with output := t.output ++ [r] } ∧
      ∀ (i : Instr) (u : State), exec i s = .next u →
        ∃ q, u.output = s.output ++ [q] ∧ exec i t = .next { u with output := t.output ++ [q] }

/-! ### The whole machine -/

/-- From R140, R146: in every state that meets the invariants every command with every operand completes with STATUS OK,
and every step gives a next state. That a step with no whole header on the input gives a next state is the model's
reading (log entry 2; U7 says stuck), and that an APPEND longer than LEN can count completes is too (log entry 11). -/
def Obligations.LegalCommandsCannotFail : Prop :=
  ∀ s : State, s.Inv →
    (∀ i : Instr, ∃ t w0 w1, exec i s = .next t ∧ t.output = s.output ++ [⟨.ok, w0, w1⟩]) ∧ s.Safe

/-- The state after reset meets the invariants of R26. -/
def Obligations.ResetMeetsInvariants : Prop := State.reset.Inv

/-- The invariants of R26 hold after every step from a state in which they hold, a fault response included. -/
def Obligations.StepKeepsInvariants : Prop :=
  ∀ s t : State, s.Inv → step s = .next t → t.Inv

/-- R27: once LONG_MODE holds, a step that does not perform INIT leaves it so. -/
def Obligations.LongModeLastsUntilInit : Prop :=
  ∀ s t : State, step s = .next t → longMode s = true →
    longMode t = true ∨ ∃ seed1 seed2 rest, decode s.input = .instr (.init seed1 seed2) rest

/-- R16: a step that performs neither INIT nor APPEND writes no architectural state. -/
def Obligations.OnlyInitAndAppendWriteState : Prop :=
  ∀ s t : State, step s = .next t →
    s.SameArch t ∨ (∃ seed1 seed2 rest, decode s.input = .instr (.init seed1 seed2) rest) ∨
      (∃ payload rest, decode s.input = .instr (.append payload) rest)

/-- R23, R96: two states that agree on STATE, the counters and the valid region of BUF, whatever else BUF holds and
whatever was answered before, give the same response to every command and agree afterwards. -/
def Obligations.StaleBytesCannotBeObserved : Prop :=
  ∀ (s u : State) (bytes : List Byte), s.Holds bytes → u.Holds bytes →
    u.state = s.state → u.totalLength = s.totalLength →
    ∀ (i : Instr) (t : State), exec i s = .next t →
      ∃ v r after, exec i u = .next v ∧ t.output = s.output ++ [r] ∧ v.output = u.output ++ [r] ∧
        v.state = t.state ∧ v.totalLength = t.totalLength ∧ t.Holds after ∧ v.Holds after

/-- R74, R75: the response to each command and to each illegal header, and the three status codes. -/
def Obligations.ResponseFormat : Prop :=
  Status.ok.code = 0x00 ∧ Status.illegalOpcode.code = 0x01 ∧ Status.illegalField.code = 0x02 ∧
  (∀ (seed1 seed2 : Word) (s t : State), exec (.init seed1 seed2) s = .next t →
    t.output = s.output ++ [⟨.ok, 0, 0⟩]) ∧
  (∀ (payload : List Byte) (s t : State), exec (.append payload) s = .next t →
    t.output = s.output ++ [⟨.ok, 0, 0⟩]) ∧
  (∀ s t : State, exec .digest64 s = .next t →
    ∃ w, finalize s = .ok w ∧ t.output = s.output ++ [⟨.ok, w.1, 0⟩]) ∧
  (∀ s t : State, exec .digest128 s = .next t →
    ∃ w, finalize s = .ok w ∧ t.output = s.output ++ [⟨.ok, w.1, w.2⟩]) ∧
  (∀ (s : State) (rest : List Byte), decode s.input = .illegalOpcode rest →
    ∃ t, step s = .next t ∧ t.output = s.output ++ [⟨.illegalOpcode, 0, 0⟩]) ∧
  (∀ (s : State) (rest : List Byte), decode s.input = .illegalField rest →
    ∃ t, step s = .next t ∧ t.output = s.output ++ [⟨.illegalField, 0, 0⟩])

/-! ### The digest as a function of the stream -/

/-- R97, which the spec marks as its own inference ('[derived: from rule R80, rule R82, ...]'): from any state, INIT and
then any APPENDs, then a digest, answer the closed function of the seeds and of all bytes supplied; after reset without
INIT the seeds are 0, 0. For a payload longer than LEN can count it says what log entry 11 says. -/
def Obligations.DigestIsFunctionOfSeedsAndStream : Prop :=
  (∀ (s : State) (seed1 seed2 : Word) (pieces : List (List Byte)),
    ∃ t w0 w1, runCommands (.init seed1 seed2 :: pieces.map Instr.append) s = .next t ∧
      digestOf seed1 seed2 pieces.flatten = .ok (w0, w1) ∧
      exec .digest128 t = .next { t with output := t.output ++ [⟨.ok, w0, w1⟩] } ∧
      exec .digest64 t = .next { t with output := t.output ++ [⟨.ok, w0, 0⟩] }) ∧
  (∀ pieces : List (List Byte),
    ∃ t w0 w1, runCommands (pieces.map Instr.append) State.reset = .next t ∧
      digestOf 0 0 pieces.flatten = .ok (w0, w1) ∧
      exec .digest128 t = .next { t with output := t.output ++ [⟨.ok, w0, w1⟩] } ∧
      exec .digest64 t = .next { t with output := t.output ++ [⟨.ok, w0, 0⟩] })

/-- R94: two ways of cutting the same bytes into APPENDs, from the same start state, give the same digests. -/
def Obligations.ChunkInvariance : Prop :=
  ∀ (s : State) (xs ys : List (List Byte)), s.Inv → xs.flatten = ys.flatten →
    ∃ t u w0 w1, runCommands (xs.map Instr.append) s = .next t ∧ runCommands (ys.map Instr.append) s = .next u ∧
      exec .digest128 t = .next { t with output := t.output ++ [⟨.ok, w0, w1⟩] } ∧
      exec .digest128 u = .next { u with output := u.output ++ [⟨.ok, w0, w1⟩] } ∧
      exec .digest64 t = .next { t with output := t.output ++ [⟨.ok, w0, 0⟩] } ∧
      exec .digest64 u = .next { u with output := u.output ++ [⟨.ok, w0, 0⟩] }

/-- R26 items 3, 4 and 6 and R98, which the spec marks as its own inferences: after INIT and any APPENDs of fewer than
2^64 bytes in all, TOTAL_LENGTH counts them, BUF holds the last of them, and STATE is MIX over the blocks before
those, in stream order. -/
def Obligations.StateAbsorbsWholeBlocksOfStream : Prop :=
  ∀ (s : State) (seed1 seed2 : Word) (pieces : List (List Byte)), pieces.flatten.length < 2 ^ 64 →
    ∃ t, runCommands (.init seed1 seed2 :: pieces.map Instr.append) s = .next t ∧
      let X := pieces.flatten
      let mixed := X.length - t.bufferedLength.toNat
      t.totalLength.toNat = X.length ∧ t.bufferedLength.toNat ≤ X.length ∧ t.Holds (X.drop mixed) ∧
      mixed % 96 = 0 ∧ (X.length < 192 → mixed = 0) ∧
      t.state = (List.range (mixed / 96)).foldl
        (fun st k => mix (wordsOf ((X.drop (96 * k)).take 96)) st) (seeded seed1 seed2)

/-- From R73, with the digest in the form the spec derives in R97: the one-shot pseudo-instructions expand to commands
that have an encoding and whose last answer is the digest of the message under the seeds. Where the message is cut into
APPENDs is the model's choice (log entry 15). -/
def Obligations.OneShotFormsAnswerDigest : Prop :=
  ∀ (s : State) (seed1 seed2 : Word) (msg : List Byte),
    (AsmLine.hash64 seed1 seed2 msg).expand.all Instr.wellFormed = true ∧
    (AsmLine.hash128 seed1 seed2 msg).expand.all Instr.wellFormed = true ∧
    ∃ w0 w1, digestOf seed1 seed2 msg = .ok (w0, w1) ∧
      (∃ t, runCommands (AsmLine.hash64 seed1 seed2 msg).expand s = .next t ∧
        t.output.getLast? = some ⟨.ok, w0, 0⟩) ∧
      (∃ t, runCommands (AsmLine.hash128 seed1 seed2 msg).expand s = .next t ∧
        t.output.getLast? = some ⟨.ok, w0, w1⟩)

/-! ### The networks -/

/-- R102, R111, R122, R125, which the spec marks as its own inferences ('[derived: from rule R110 by substituting i =
0..11]' and the like): each network, as R101, R110, R121, R124 give it over step indices, is its unrolled form. -/
def Obligations.NetworksEqualUnrolledForms : Prop :=
  (∀ d s : Words12, mix d s = mixUnrolled d s) ∧ (∀ h : Words12, endPartial h = endPartialUnrolled h) ∧
  (∀ h : Words4, shortMix h = shortMixUnrolled h) ∧ (∀ h : Words4, shortEnd h = shortEndUnrolled h)

/-- R104, whose correctness the spec marks as its own inference ('[derived: from rule R101, ...]'): the inverse given
there undoes MIX, and MIX undoes it, for every data block. -/
def Obligations.MixIsInvertible : Prop :=
  ∀ d s : Words12, unmix d (mix d s) = s ∧ mix d (unmix d s) = s

/-- R114, R123, which the spec marks as its own inferences: END_PARTIAL and SHORT_MIX are bijections; SHORT_END, made
of statements of the same kinds, is one too. -/
def Obligations.FinalNetworksAreBijections : Prop :=
  Function.Bijective endPartial ∧ Function.Bijective shortMix ∧ Function.Bijective shortEnd

/-- R112: END adds the data words and runs exactly three passes. -/
def Obligations.EndAddsBlockThenThreePasses : Prop :=
  ∀ d h : Words12, ∃ g : Words12, (∀ i : Fin 12, g[i] = h[i] + d[i]) ∧
    endNet d h = endPartial (endPartial (endPartial g))

/-- R130, which the spec marks as its own inference ('[derived: from rule R129 and ...]'): for a tail of 1 to 15 bytes
the table of R129 adds the first up to 8 bytes to c and the rest to d. -/
def Obligations.TailTableIsTwoLittleEndianWords : Prop :=
  ∀ (t : List Byte) (a b c d : Word), 1 ≤ t.length → t.length ≤ 15 →
    shortTail t #v[a, b, c, d] = .ok #v[a, b, c + le (t.take 8), d + le (t.drop 8)]

/-- R126, R128, R130, R131, R132: SHORT of a message with no chunk and no half chunk, written out. Every other length is
in ShortOfEveryMessage. -/
def Obligations.ShortOfAtMostFifteenBytes : Prop :=
  ∀ (msg : List Byte) (seed1 seed2 : Word), msg.length ≤ 15 →
    let C : Word := 0xdeadbeefdeadbeef
    let d := C + (BitVec.ofNat 64 msg.length <<< 56)
    let h := if msg.length = 0 then shortEnd #v[seed1, seed2, C + C, d + C]
      else shortEnd #v[seed1, seed2, C + le (msg.take 8), d + le (msg.drop 8)]
    short msg seed1 seed2 = .ok (h[0], h[1])

/-- R126, R127, R128, R131, R132, and R130, which the spec marks as its own inference: SHORT of any message, written out
phase by phase. A chunk adds its words 0 and 1 to c and d, mixes, and adds its words 2 and 3 to a and b; a half chunk,
when 16 or more bytes are left, adds two words to c and d and mixes; then the length fold, the tail and SHORT_END. -/
def Obligations.ShortOfEveryMessage : Prop :=
  ∀ (msg : List Byte) (seed1 seed2 : Word),
    let C : Word := 0xdeadbeefdeadbeef
    let word (p : Nat) : Word := le ((msg.drop p).take 8)
    let absorb (h : Words4) (p : Nat) : Words4 := shortMix #v[h[0], h[1], h[2] + word p, h[3] + word (p + 8)]
    let chunk (h : Words4) (k : Nat) : Words4 :=
      let g := absorb h (32 * k)
      #v[g[0] + word (32 * k + 16), g[1] + word (32 * k + 24), g[2], g[3]]
    let n := msg.length / 32
    let chunked := (List.range n).foldl chunk #v[seed1, seed2, C, C]
    let h := if 16 ≤ msg.length % 32 then absorb chunked (32 * n) else chunked
    let d := h[3] + (BitVec.ofNat 64 msg.length <<< 56)
    let tail := msg.drop (16 * (msg.length / 16))
    let g := if tail = [] then shortEnd #v[h[0], h[1], h[2] + C, d + C]
      else shortEnd #v[h[0], h[1], h[2] + le (tail.take 8), d + le (tail.drop 8)]
    short msg seed1 seed2 = .ok (g[0], g[1])

/-- R51, R133, which the spec marks as its own inferences: no engine reads its byte sequence at or beyond its length:
SHORT over any message, MIX over the blocks a sequence has, and the padded block of a tail of at most 95 bytes. -/
def Obligations.EnginesReadWithinTheirSequences : Prop :=
  (∀ (msg : List Byte) (seed1 seed2 : Word), ∃ w, short msg seed1 seed2 = .ok w) ∧
  (∀ (nb : Nat) (S : List Byte) (h : Words12), 96 * nb ≤ S.length → ∃ g, mixBlocks nb S h = .ok g) ∧
  (∀ (tail : List Byte) (h : Words12), tail.length ≤ 95 → ∃ w, finishLong tail h = .ok w)

/-! ### Words and bytes -/

/-- R12: rotation by its formula, at amount 0, bit by bit, and undone by its inverse. -/
def Obligations.RotationMovesEveryBit : Prop :=
  ∀ (x : Word) (k : Nat), k ≤ 63 →
    (1 ≤ k → rotl64 x k = (x <<< k) ||| (x >>> (64 - k))) ∧ rotl64 x 0 = x ∧
    rotr64 x k = rotl64 x ((64 - k) % 64) ∧
    (∀ i, i < 64 → (rotl64 x k).getLsbD ((i + k) % 64) = x.getLsbD i) ∧
    rotr64 (rotl64 x k) k = x ∧ rotl64 (rotr64 x k) k = x

/-- R13: byte-to-word decoding is little-endian, missing high bytes count as zero, and the words of a block are its
twelve groups of 8 bytes. -/
def Obligations.WordsAreLittleEndian : Prop :=
  (∀ b : List Byte, b.length ≤ 8 → (le b).toNat = ∑ j : Fin b.length, b[j].toNat * 2 ^ (8 * j.val)) ∧
  (∀ b : List Byte, b.length ≤ 8 → ∀ k, k < 8 → (le b).extractLsb' (8 * k) 8 = (b[k]?).getD 0) ∧
  (∀ (B : List Byte) (i : Fin 12), B.length = 96 → (wordsOf B)[i] = le ((B.drop (8 * i.val)).take 8))

/-! ### Encoding -/

/-- Decoding the packet of a command that has an encoding gives back the command with every operand, and what follows
the packet is left. -/
def Obligations.DecodeOfEncode : Prop :=
  ∀ (i : Instr) (rest : List Byte), i.wellFormed = true → decode (encode i ++ rest) = .instr i rest

/-- What decodes to a command is the packet of that command: no two packets stand for one command, and what the
decoder gives has an encoding. -/
def Obligations.DecodedCommandIsItsOwnPacket : Prop :=
  ∀ (bytes : List Byte) (i : Instr) (rest : List Byte), decode bytes = .instr i rest →
    i.wellFormed = true ∧ bytes = encode i ++ rest

/-- R67: a header is read as a row of the opcode map exactly where it matches the row under the row's mask, the
payload is as long as the row says, and no header selects two rows. -/
def Obligations.HeadersSelectRowsOfOpcodeMap : Prop :=
  ∀ h : Header,
    (decodeHeader h = .init ↔ h &&& 0xffffffff = 0x00000001) ∧
    (decodeHeader h = .append ↔ h &&& 0x000000ff = 0x00000002) ∧
    (decodeHeader h = .digest64 ↔ h &&& 0xffffffff = 0x00000003) ∧
    (decodeHeader h = .digest128 ↔ h &&& 0xffffffff = 0x00000004) ∧
    (decodeHeader h = .init → payloadLength h = 16) ∧ (decodeHeader h = .append → payloadLength h = (h >>> 8).toNat) ∧
    (decodeHeader h = .digest64 ∨ decodeHeader h = .digest128 → payloadLength h = 0) ∧
    (opcodeRows.filter fun row => row.selects h).length ≤ 1

/-- R141: a header whose OPC is none of the four is answered ILLEGAL_OPCODE, whatever its bits 31:8; the header alone
is consumed and nothing else changes. -/
def Obligations.UnknownOpcodeIsAnsweredIllegalOpcode : Prop :=
  ∀ (s : State) (h : Header) (rest : List Byte), s.input = leBytes 4 h.toNat ++ rest →
    h.opc ≠ 0x01 → h.opc ≠ 0x02 → h.opc ≠ 0x03 → h.opc ≠ 0x04 →
    step s = .next { s with input := rest, output := s.output ++ [⟨.illegalOpcode, 0, 0⟩] }

/-- R142: INIT, DIGEST64 and DIGEST128 with bits 31:8 not zero are answered ILLEGAL_FIELD and take no payload; APPEND
cannot raise it. -/
def Obligations.NonzeroArgIsAnsweredIllegalField : Prop :=
  (∀ (s : State) (h : Header) (rest : List Byte), s.input = leBytes 4 h.toNat ++ rest →
    (h.opc = 0x01 ∨ h.opc = 0x03 ∨ h.opc = 0x04) → h.arg ≠ 0 →
    step s = .next { s with input := rest, output := s.output ++ [⟨.illegalField, 0, 0⟩] }) ∧
  (∀ h : Header, h.opc = 0x02 → decodeHeader h = .append)

/-- R146: a decode fault consumes the four header bytes, writes no architectural state and emits (STATUS, 0, 0). -/
def Obligations.DecodeFaultChangesNothing : Prop :=
  ∀ (s : State) (rest : List Byte),
    (decode s.input = .illegalOpcode rest ∨ decode s.input = .illegalField rest) →
    ∃ t st, step s = .next t ∧ s.SameArch t ∧ t.input = s.input.drop 4 ∧
      t.output = s.output ++ [⟨st, 0, 0⟩] ∧ (st = .illegalOpcode ∨ st = .illegalField)

/-- R70: the header alone tells the payload length; a packet with its whole payload is consumed whole and no more, and
with less the unit waits: no state changes and no response is given. -/
def Obligations.HeaderTellsPayloadLength : Prop :=
  ∀ h : Header,
    (h.opc = 0x02 → payloadLength h = h.arg.toNat) ∧ (h = 0x00000001 → payloadLength h = 16) ∧
    (h.opc ≠ 0x02 → h ≠ 0x00000001 → payloadLength h = 0) ∧
    (∀ payload rest : List Byte, payload.length = payloadLength h →
      (∃ i, decode (leBytes 4 h.toNat ++ payload ++ rest) = .instr i rest) ∨
      decode (leBytes 4 h.toNat ++ payload ++ rest) = .illegalOpcode rest ∨
      decode (leBytes 4 h.toNat ++ payload ++ rest) = .illegalField rest) ∧
    (∀ payload : List Byte, payload.length < payloadLength h →
      decode (leBytes 4 h.toNat ++ payload) = .incomplete ∧
      ∀ s : State, s.input = leBytes 4 h.toNat ++ payload → step s = .next s)

/-- R66: the seeds of INIT are bytes 0 to 7 and bytes 8 to 15 of its payload, each little-endian. -/
def Obligations.InitPayloadHoldsSeeds : Prop :=
  ∀ payload rest : List Byte, payload.length = 16 →
    decode ([0x01, 0x00, 0x00, 0x00] ++ payload ++ rest) =
      .instr (.init (le (payload.take 8)) (le ((payload.drop 8).take 8))) rest

/-- R76: on the byte carrier the header is four bytes, least significant first, so OPC is first, and the payload
follows; on the word carrier the header is a word and the payload is packed four to a word with zeros at the end; both
carry the same packets. -/
def Obligations.WordCarrierCarriesTheSamePackets : Prop :=
  (∀ (i : Instr) (rest : List (BitVec 32)), i.wellFormed = true →
    encode i = leBytes 4 i.header.toNat ++ i.payload ∧ (encode i).head? = some i.header.opc ∧
    (∃ packed pad, encodeWords i = i.header :: packed ∧ pad < 4 ∧
      unpackWords packed = i.payload ++ List.replicate pad 0) ∧
    decode (encode i) = .instr i [] ∧ decodeWords (encodeWords i ++ rest) = .instr i rest) ∧
  (∀ (h : Header) (ws : List (BitVec 32)) (bytes : List Byte),
    (decodeWords (h :: ws) = .illegalOpcode ws ↔ decode (leBytes 4 h.toNat ++ bytes) = .illegalOpcode bytes) ∧
    (decodeWords (h :: ws) = .illegalField ws ↔ decode (leBytes 4 h.toNat ++ bytes) = .illegalField bytes))

/-- Packets written out byte by byte from spec/95_test_vectors.md 6.1 and 6.2 decode as it says. -/
def Obligations.WrittenOutPacketsDecode : Prop :=
  decode [0x01, 0x00, 0x00, 0x00, 0xef, 0xcd, 0xab, 0x89, 0x67, 0x45, 0x23, 0x01,
    0x10, 0x32, 0x54, 0x76, 0x98, 0xba, 0xdc, 0xfe] = .instr (.init 0x0123456789abcdef 0xfedcba9876543210) [] ∧
  decode [0x02, 0x00, 0x00, 0x00] = .instr (.append []) [] ∧
  decode [0x02, 0x03, 0x00, 0x00, 0x61, 0x62, 0x63] = .instr (.append [0x61, 0x62, 0x63]) [] ∧
  decode [0x03, 0x00, 0x00, 0x00] = .instr .digest64 [] ∧
  decode [0x04, 0x00, 0x00, 0x00] = .instr .digest128 [] ∧
  decode [0x05, 0x10, 0x00, 0x00] = .illegalOpcode [] ∧
  decode [0x01, 0x01, 0x00, 0x00] = .illegalField [] ∧
  decode [0x04, 0x00, 0x00, 0x80] = .illegalField []

/-! ### Steps and packets -/

/-- R29, R145: when a whole packet of a command stands at the head of the input, the step is that command, performed
on the state with the packet consumed. -/
def Obligations.StepPerformsDecodedCommand : Prop :=
  ∀ (s : State) (i : Instr) (rest : List Byte), decode s.input = .instr i rest →
    step s = exec i { s with input := rest }

/-- From R60, R70: a step consumes exactly one packet, its header and the payload that the header calls for, and emits
exactly one response; or it holds, with nothing changed. That it holds also while the header is not complete is the
model's reading (log entry 2). -/
def Obligations.OneResponsePerPacket : Prop :=
  ∀ s t : State, step s = .next t →
    (decode s.input = .incomplete ∧ t = s) ∨
    ∃ (h : Header) (payload : List Byte) (r : Response), s.input = leBytes 4 h.toNat ++ payload ++ t.input ∧
      payload.length = payloadLength h ∧ t.output = s.output ++ [r]

/-- R151: while the payload is not complete the unit holds; when the rest of it arrives the command is performed. -/
def Obligations.IncompletePacketHolds : Prop :=
  ∀ (s : State) (h : Header) (payload : List Byte),
    s.input = leBytes 4 h.toNat ++ payload → payload.length < payloadLength h →
    step s = .next s ∧
    ∀ more : List Byte, payload.length + more.length = payloadLength h →
      ∃ i, decode (leBytes 4 h.toNat ++ payload ++ more) = .instr i [] ∧
        step (s.supply more) = exec i { s with input := [] }

/-- The model's reading of R70 and R151 for a header that has not wholly arrived (log entry 2): the unit is idle. -/
def Obligations.UnitWithoutHeaderIsIdle : Prop :=
  ∀ s : State, s.input.length < 4 → step s = .next s

/-- R60, R171: steps over the packets of a list of commands are the run of that list. -/
def Obligations.StepsOverPacketsRunTheCommands : Prop :=
  ∀ (commands : List Instr) (s : State) (rest : List Byte), commands.all Instr.wellFormed = true →
    s.input = encodeAll commands ++ rest →
    Sys2Proof.core.run commands.length s = runCommands commands { s with input := rest }

/-- R149: a step of one unit leaves every other unit as it was. -/
def Obligations.UnitsShareNothing : Prop :=
  ∀ (us vs : Units) (k : Nat), us.step k = .next vs → ∀ j, j ≠ k → vs[j]? = us[j]?
end

