-- ==== Sys2Proof/Laws/State.lean ====
section
/-! SUPPORT. One lemma for each field of State under each update, so that no proof unfolds a record update. -/

namespace Sys2Proof.Machine

/-! ### `State.setState` -/

@[simp] theorem State.setState_state (s : State) (v : Words12) : (s.setState v).state = v := rfl
@[simp] theorem State.setState_buf (s : State) (v : Words12) : (s.setState v).buf = s.buf := rfl
@[simp] theorem State.setState_totalLength (s : State) (v : Words12) : (s.setState v).totalLength = s.totalLength := rfl
@[simp] theorem State.setState_bufferedLength (s : State) (v : Words12) : (s.setState v).bufferedLength = s.bufferedLength := rfl
@[simp] theorem State.setState_input (s : State) (v : Words12) : (s.setState v).input = s.input := rfl
@[simp] theorem State.setState_output (s : State) (v : Words12) : (s.setState v).output = s.output := rfl

/-! ### `State.setBuf` -/

@[simp] theorem State.setBuf_state (s : State) (v : Memory) : (s.setBuf v).state = s.state := rfl
@[simp] theorem State.setBuf_buf (s : State) (v : Memory) : (s.setBuf v).buf = v := rfl
@[simp] theorem State.setBuf_totalLength (s : State) (v : Memory) : (s.setBuf v).totalLength = s.totalLength := rfl
@[simp] theorem State.setBuf_bufferedLength (s : State) (v : Memory) : (s.setBuf v).bufferedLength = s.bufferedLength := rfl
@[simp] theorem State.setBuf_input (s : State) (v : Memory) : (s.setBuf v).input = s.input := rfl
@[simp] theorem State.setBuf_output (s : State) (v : Memory) : (s.setBuf v).output = s.output := rfl

/-! ### `State.setTotalLength` -/

@[simp] theorem State.setTotalLength_state (s : State) (v : BitVec 64) : (s.setTotalLength v).state = s.state := rfl
@[simp] theorem State.setTotalLength_buf (s : State) (v : BitVec 64) : (s.setTotalLength v).buf = s.buf := rfl
@[simp] theorem State.setTotalLength_totalLength (s : State) (v : BitVec 64) : (s.setTotalLength v).totalLength = v := rfl
@[simp] theorem State.setTotalLength_bufferedLength (s : State) (v : BitVec 64) : (s.setTotalLength v).bufferedLength = s.bufferedLength := rfl
@[simp] theorem State.setTotalLength_input (s : State) (v : BitVec 64) : (s.setTotalLength v).input = s.input := rfl
@[simp] theorem State.setTotalLength_output (s : State) (v : BitVec 64) : (s.setTotalLength v).output = s.output := rfl

/-! ### `State.setBufferedLength` -/

@[simp] theorem State.setBufferedLength_state (s : State) (v : BitVec 8) : (s.setBufferedLength v).state = s.state := rfl
@[simp] theorem State.setBufferedLength_buf (s : State) (v : BitVec 8) : (s.setBufferedLength v).buf = s.buf := rfl
@[simp] theorem State.setBufferedLength_totalLength (s : State) (v : BitVec 8) : (s.setBufferedLength v).totalLength = s.totalLength := rfl
@[simp] theorem State.setBufferedLength_bufferedLength (s : State) (v : BitVec 8) : (s.setBufferedLength v).bufferedLength = v := rfl
@[simp] theorem State.setBufferedLength_input (s : State) (v : BitVec 8) : (s.setBufferedLength v).input = s.input := rfl
@[simp] theorem State.setBufferedLength_output (s : State) (v : BitVec 8) : (s.setBufferedLength v).output = s.output := rfl

/-! ### `State.setInput` -/

@[simp] theorem State.setInput_state (s : State) (v : List Byte) : (s.setInput v).state = s.state := rfl
@[simp] theorem State.setInput_buf (s : State) (v : List Byte) : (s.setInput v).buf = s.buf := rfl
@[simp] theorem State.setInput_totalLength (s : State) (v : List Byte) : (s.setInput v).totalLength = s.totalLength := rfl
@[simp] theorem State.setInput_bufferedLength (s : State) (v : List Byte) : (s.setInput v).bufferedLength = s.bufferedLength := rfl
@[simp] theorem State.setInput_input (s : State) (v : List Byte) : (s.setInput v).input = v := rfl
@[simp] theorem State.setInput_output (s : State) (v : List Byte) : (s.setInput v).output = s.output := rfl

/-! ### `State.emit` -/

@[simp] theorem State.emit_state (s : State) (v : Response) : (s.emit v).state = s.state := rfl
@[simp] theorem State.emit_buf (s : State) (v : Response) : (s.emit v).buf = s.buf := rfl
@[simp] theorem State.emit_totalLength (s : State) (v : Response) : (s.emit v).totalLength = s.totalLength := rfl
@[simp] theorem State.emit_bufferedLength (s : State) (v : Response) : (s.emit v).bufferedLength = s.bufferedLength := rfl
@[simp] theorem State.emit_input (s : State) (v : Response) : (s.emit v).input = s.input := rfl
@[simp] theorem State.emit_output (s : State) (v : Response) : (s.emit v).output = s.output ++ [v] := rfl

/-! ### Taking a decode fault changes the output only (R146) -/

@[simp] theorem raiseFault_eq (st : Status) (s : State) : raiseFault st s = s.emit ⟨st, 0, 0⟩ := rfl

/-! ### The outcome of a command -/

@[simp] theorem toOutcome_ok (s : State) : toOutcome (.ok s) = .next s := rfl

@[simp] theorem toOutcome_error (f : Fault) : toOutcome (.error f) = .fault f := rfl

theorem toOutcome_eq_next {r : Except Fault State} {t : State} : toOutcome r = .next t ↔ r = .ok t := by
  cases r <;> simp [toOutcome]

/-! ### Sequencing of checked reads -/

@[simp] theorem bind_ok {α β : Type} (a : α) (f : α → Except Fault β) : (Except.ok a >>= f) = f a := rfl

@[simp] theorem bind_error {α β : Type} (e : Fault) (f : α → Except Fault β) :
    (Except.error e >>= f) = .error e := rfl

theorem bind_eq_ok {α β : Type} {x : Except Fault α} {f : α → Except Fault β} {b : β} :
    (x >>= f) = .ok b ↔ ∃ a, x = .ok a ∧ f a = .ok b := by
  cases x with
  | ok a => simp
  | error e => simp

@[simp] theorem pure_eq_ok {α : Type} (a : α) : (pure a : Except Fault α) = .ok a := rfl

end Sys2Proof.Machine
end

