-- ==== Sys2Proof/Laws/Memory.lean ====
section
/-! SUPPORT. BUF as a memory: what a read finds after a write, that every write keeps the canonical form, and when the
checked reads and writes of BUF succeed (spec/20_memory.md R48, R51, R52). -/

namespace Sys2Proof.Machine

@[simp] theorem Memory.read_write_self (m : Memory) (a : Nat) (v : Byte) : (m.write a v).read a = some v := by
  induction m with
  | nil => simp [Memory.write, Memory.read]
  | cons kb m ih =>
    obtain ⟨k, b⟩ := kb
    simp only [Memory.write]
    split
    · simp [Memory.read]
    · split
      · simp [Memory.read]
      · simp [Memory.read, *]

theorem Memory.read_write_other (m : Memory) {a k : Nat} (v : Byte) (h : k ≠ a) :
    (m.write a v).read k = m.read k := by
  induction m with
  | nil => simp [Memory.write, Memory.read, Ne.symm h]
  | cons kb m ih =>
    obtain ⟨k', b⟩ := kb
    simp only [Memory.write]
    split
    · simp [Memory.read, Ne.symm h]
    · split
      · next h1 h2 => subst h2; simp [Memory.read, Ne.symm h]
      · simp only [Memory.read, ih]

theorem Memory.write_risingFrom (m : Memory) {lo a : Nat} (v : Byte) (hlo : lo ≤ a) (ha : a < Config.bufSize)
    (h : m.risingFrom lo = true) : (m.write a v).risingFrom lo = true := by
  induction m generalizing lo with
  | nil => simp [Memory.write, Memory.risingFrom, hlo, ha]
  | cons kb m ih =>
    obtain ⟨k, b⟩ := kb
    simp only [Memory.risingFrom, Bool.and_eq_true, decide_eq_true_eq] at h
    obtain ⟨⟨hk, hk'⟩, hm⟩ := h
    simp only [Memory.write]
    split
    · next hak => simp [Memory.risingFrom, hlo, ha, hk', hm]; omega
    · split
      · next hka => subst hka; simp [Memory.risingFrom, hk, hk', hm]
      · simp only [Memory.risingFrom, Bool.and_eq_true, decide_eq_true_eq]
        exact ⟨⟨hk, hk'⟩, ih (by omega) hm⟩

/-- Writing at an offset of BUF keeps the canonical form. -/
theorem Memory.write_wf (m : Memory) {a : Nat} (v : Byte) (ha : a < Config.bufSize) (h : m.wf = true) :
    (m.write a v).wf = true := Memory.write_risingFrom m v (Nat.zero_le a) ha h

/-- A copy that fits in BUF succeeds. -/
theorem writeBufBytes_ok (m : Memory) (a : Nat) (bs : List Byte) (h : a + bs.length ≤ Config.bufSize) :
    ∃ m', writeBufBytes m a bs = .ok m' := by
  induction bs generalizing m a with
  | nil => exact ⟨m, rfl⟩
  | cons b bs ih =>
    simp only [List.length_cons] at h
    have : ¬ Config.bufSize ≤ a := by omega
    simp only [writeBufBytes, this, if_false]
    exact ih _ _ (by omega)

/-- What a copy to BUF leaves at every offset. -/
theorem writeBufBytes_read {m m' : Memory} {a : Nat} {bs : List Byte} (h : writeBufBytes m a bs = .ok m') (k : Nat) :
    m'.read k = if a ≤ k ∧ k < a + bs.length then bs[k - a]? else m.read k := by
  induction bs generalizing m a with
  | nil =>
    simp only [writeBufBytes, Except.ok.injEq] at h
    subst h
    simp
  | cons b bs ih =>
    simp only [writeBufBytes] at h
    split at h
    · simp at h
    · rw [ih h]
      simp only [List.length_cons]
      by_cases hk : k = a
      · subst hk; simp
      · by_cases h2 : a + 1 ≤ k ∧ k < a + 1 + bs.length
        · have h3 : a ≤ k ∧ k < a + (bs.length + 1) := by omega
          have h4 : k - a = (k - (a + 1)) + 1 := by omega
          simp [h2, h3, h4]
        · have h3 : ¬ (a ≤ k ∧ k < a + (bs.length + 1)) := by omega
          simp only [h2, h3, if_false]
          exact Memory.read_write_other m b hk

/-- A copy to BUF keeps the canonical form. -/
theorem writeBufBytes_wf {m m' : Memory} {a : Nat} {bs : List Byte} (h : writeBufBytes m a bs = .ok m')
    (hw : m.wf = true) : m'.wf = true := by
  induction bs generalizing m a with
  | nil => simp only [writeBufBytes, Except.ok.injEq] at h; exact h ▸ hw
  | cons b bs ih =>
    simp only [writeBufBytes] at h
    split at h
    · simp at h
    · next ha => exact ih h (Memory.write_wf m b (by omega) hw)

theorem reset_buf_wf : State.reset.buf.wf = true := by decide

/-- A read inside the valid region of a state that holds `bytes` finds the byte. -/
theorem readBufByte_of_holds {s : State} {bytes : List Byte} (h : s.Holds bytes) {a : Nat} (ha : a < bytes.length) :
    readBufByte s a = .ok bytes[a] := by
  obtain ⟨hl, hb, hr⟩ := h
  have h1 : ¬ Config.bufSize ≤ a := by omega
  have h2 : ¬ s.bufferedLength.toNat ≤ a := by omega
  simp [readBufByte, h1, h2, hr a ha, List.getElem?_eq_getElem ha]

/-- The bytes of a stretch of the valid region. -/
theorem readBufBytes_of_holds {s : State} {bytes : List Byte} (h : s.Holds bytes) {a n : Nat}
    (han : a + n ≤ bytes.length) : readBufBytes s a n = .ok ((bytes.drop a).take n) := by
  induction n generalizing a with
  | zero => simp [readBufBytes]
  | succ n ih =>
    simp only [readBufBytes, readBufByte_of_holds h (show a < bytes.length by omega), ih (show a + 1 + n ≤ _ by omega),
      bind_ok, pure_eq_ok]
    rw [List.drop_eq_getElem_cons (show a < bytes.length by omega), List.take_succ_cons]

/-- The whole valid region. -/
theorem readBufBytes_all {s : State} {bytes : List Byte} (h : s.Holds bytes) :
    readBufBytes s 0 s.bufferedLength.toNat = .ok bytes := by
  rw [readBufBytes_of_holds h (by rw [h.1]; omega), h.1]
  simp

/-- Reading BUF looks at BUF and BUFFERED_LENGTH only. -/
theorem readBufBytes_congr {s t : State} (hb : t.buf = s.buf) (hl : t.bufferedLength = s.bufferedLength) (a n : Nat) :
    readBufBytes t a n = readBufBytes s a n := by
  induction n generalizing a with
  | zero => rfl
  | succ n ih => simp only [readBufBytes, readBufByte, hb, hl, ih]

end Sys2Proof.Machine
end

