-- ==== Sys2Proof/Laws/PerInstr.lean ====
section
/-! SUPPORT. The statements made of every command as syntax, one lemma for each constructor. -/

namespace Sys2Proof

theorem leBytes_length (n v : Nat) : (leBytes n v).length = n := by
  induction n generalizing v with
  | zero => rfl
  | succ n ih => simp [leBytes, ih]

/-- The low `n` bytes of a number, read back. -/
theorem leNat_leBytes (n v : Nat) : leNat (leBytes n v) = v % 256 ^ n := by
  induction n generalizing v with
  | zero => simp [leBytes, leNat, Nat.mod_one]
  | succ n ih =>
    simp only [leBytes, leNat, ih, BitVec.toNat_ofNat]
    rw [show (256 : Nat) ^ (n + 1) = 256 * 256 ^ n by ring, Nat.mod_mul]

/-- A number below `256 ^ n` is what its `n` low bytes say. -/
theorem leNat_leBytes_of_lt {n v : Nat} (h : v < 256 ^ n) : leNat (leBytes n v) = v := by
  rw [leNat_leBytes, Nat.mod_eq_of_lt h]

/-- The bytes of a sequence say a number that they fit in. -/
theorem leNat_lt (bs : List Byte) : leNat bs < 256 ^ bs.length := by
  induction bs with
  | nil => simp [leNat]
  | cons b bs ih =>
    have := b.isLt
    simp only [leNat, List.length_cons, pow_succ]
    omega

/-- The header of four bytes that a header was written as (R76). -/
theorem headerOfBytes_leBytes (h : Header) :
    ∃ b0 b1 b2 b3, leBytes 4 h.toNat = [b0, b1, b2, b3] ∧ headerOfBytes b0 b1 b2 b3 = h := by
  refine ⟨_, _, _, _, rfl, ?_⟩
  have h1 : leNat (leBytes 4 h.toNat) = h.toNat := leNat_leBytes_of_lt (by have := h.isLt; omega)
  have h2 : headerOfBytes (BitVec.ofNat 8 h.toNat) (BitVec.ofNat 8 (h.toNat / 256))
      (BitVec.ofNat 8 (h.toNat / 256 / 256)) (BitVec.ofNat 8 (h.toNat / 256 / 256 / 256))
      = BitVec.ofNat 32 (leNat (leBytes 4 h.toNat)) := rfl
  rw [h2, h1]
  simp

end Sys2Proof

namespace Sys2Proof.Laws.PacketLength

/-- The packet of a command with an encoding is its four header bytes and as many payload bytes as the header calls
for (R70). -/
def Statement (i : Instr) : Prop :=
  i.wellFormed = true → (encode i).length = 4 + payloadLength i.header

theorem init (seed1 seed2 : Word) : Statement (.init seed1 seed2) := fun _ => by
  simp only [encode, Instr.payload, Instr.header, List.length_append, leBytes_length]
  decide

theorem append (payload : List Byte) : Statement (.append payload) := fun h => by
  simp only [Instr.wellFormed, decide_eq_true_eq, Config.lenMax] at h
  simp only [encode, Instr.payload, Instr.header, List.length_append, leBytes_length]
  have h1 : (BitVec.ofNat 32 (256 * payload.length + 2)).toNat = 256 * payload.length + 2 := by
    rw [BitVec.toNat_ofNat]; omega
  have h2 : Header.opc (BitVec.ofNat 32 (256 * payload.length + 2)) = 0x02 := by
    apply BitVec.eq_of_toNat_eq
    simp only [Header.opc, BitVec.extractLsb'_toNat, h1, Nat.shiftRight_zero]
    change (256 * payload.length + 2) % 2 ^ 8 = 2
    omega
  have h3 : (Header.arg (BitVec.ofNat 32 (256 * payload.length + 2))).toNat = payload.length := by
    simp only [Header.arg, BitVec.extractLsb'_toNat, h1, Nat.shiftRight_eq_div_pow]
    omega
  rw [payloadLength, if_pos h2, h3]

theorem digest64 : Statement .digest64 := fun _ => by decide

theorem digest128 : Statement .digest128 := fun _ => by decide

end Sys2Proof.Laws.PacketLength
end

