-- ==== Sys2Proof/Laws/Sequences.lean ====
section
/-! SUPPORT. When the checked reads of a byte sequence succeed, and what they give (spec/20_memory.md R51). -/

namespace Sys2Proof.Machine

theorem byteAt_ok {S : List Byte} {j : Nat} (h : j < S.length) : byteAt S j = .ok S[j] := by
  simp [byteAt, List.getElem?_eq_getElem h]

theorem sliceAt_ok {S : List Byte} {a n : Nat} (h : a + n ≤ S.length) :
    sliceAt S a n = .ok ((S.drop a).take n) := by simp [sliceAt, h]

theorem sliceAt_eq_ok {S B : List Byte} {a n : Nat} :
    sliceAt S a n = .ok B ↔ a + n ≤ S.length ∧ B = (S.drop a).take n := by
  simp only [sliceAt]
  split
  · next h => simp [h, eq_comm]
  · next h => simp [h]

theorem le64At_ok {S : List Byte} {a : Nat} (h : a + 8 ≤ S.length) :
    le64At S a = .ok (le ((S.drop a).take 8)) := by simp [le64At, sliceAt_ok h]

theorem le32At_ok {S : List Byte} {a : Nat} (h : a + 4 ≤ S.length) :
    le32At S a = .ok (le ((S.drop a).take 4)) := by simp [le32At, sliceAt_ok h]

theorem shiftedByteAt_ok {S : List Byte} {j k : Nat} (h : j < S.length) :
    shiftedByteAt S j k = .ok ((S[j]).setWidth 64 <<< k) := by simp [shiftedByteAt, byteAt_ok h]

theorem blockWords_ok {B : List Byte} (h : B.length = Config.blockSize) : blockWords B = .ok (wordsOf B) := by
  simp [blockWords, h]

theorem lastBlock_length {tail : List Byte} (h : tail.length ≤ 95) : (lastBlock tail).length = Config.blockSize := by
  simp [lastBlock, Config.blockSize]; omega

/-- What the counter holds after `n` more bytes (R25). -/
theorem addToTotal_toNat (total : BitVec 64) (n : Nat) :
    (addToTotal total n).toNat = min (total.toNat + n) Config.totalMax := by
  have : min (total.toNat + n) Config.totalMax < 2 ^ 64 := by simp only [Config.totalMax]; omega
  rw [addToTotal, BitVec.toNat_ofNat, Nat.mod_eq_of_lt this]

@[simp] theorem addToTotal_zero (total : BitVec 64) : addToTotal total 0 = total := by
  apply BitVec.eq_of_toNat_eq
  have := total.isLt
  rw [addToTotal_toNat]; simp only [Config.totalMax]; omega

end Sys2Proof.Machine
end

