-- ==== Sys2Proof/Laws/Streaming.lean ====
section
/-! SUPPORT. What each command can do, said once: if it gives a next state, then which one
(spec/40_streaming_commands.md R80 to R93). -/

namespace Sys2Proof.Machine

/-- The buffer-only case completes: the copy fits. -/
theorem appendBuffered_ok {payload : List Byte} {s : State}
    (h : s.bufferedLength.toNat + payload.length < Config.bufSize) :
    ∃ buf, writeBufBytes s.buf s.bufferedLength.toNat payload = .ok buf ∧
      appendBuffered payload s =
        .ok ((s.setBuf buf).setBufferedLength (BitVec.ofNat 8 (s.bufferedLength.toNat + payload.length))) := by
  obtain ⟨buf, hb⟩ := writeBufBytes_ok s.buf s.bufferedLength.toNat payload (by omega)
  exact ⟨buf, hb, by simp [appendBuffered, hb]⟩

/-- Everything the dispatch case can do when it completes. -/
theorem appendDispatch_eq_ok {payload : List Byte} {s t : State} (h : appendDispatch payload s = .ok t) :
    ∃ tail st left buf,
      readBufBytes s 0 s.bufferedLength.toNat = .ok tail ∧
      mixBlocks ((tail ++ payload).length / Config.blockSize) (tail ++ payload) s.state = .ok st ∧
      sliceAt (tail ++ payload) (Config.blockSize * ((tail ++ payload).length / Config.blockSize))
        ((tail ++ payload).length % Config.blockSize) = .ok left ∧
      writeBufBytes s.buf 0 left = .ok buf ∧
      t = ((s.setState st).setBuf buf).setBufferedLength
        (BitVec.ofNat 8 ((tail ++ payload).length % Config.blockSize)) := by
  simp only [appendDispatch] at h
  obtain ⟨tail, h1, h⟩ := bind_eq_ok.1 h
  obtain ⟨st, h2, h⟩ := bind_eq_ok.1 h
  obtain ⟨left, h3, h⟩ := bind_eq_ok.1 h
  obtain ⟨buf, h4, h⟩ := bind_eq_ok.1 h
  simp only [pure_eq_ok, Except.ok.injEq] at h
  exact ⟨tail, st, left, buf, h1, h2, h3, h4, h.symm⟩

/-- An APPEND touches neither the interface nor TOTAL_LENGTH while it absorbs. -/
theorem absorb_frame {payload : List Byte} {s t : State} (h : absorb payload s = .ok t) :
    t.totalLength = s.totalLength ∧ t.input = s.input ∧ t.output = s.output := by
  simp only [absorb] at h
  split at h
  · next hm =>
    obtain ⟨buf, -, hb⟩ := appendBuffered_ok hm
    rw [hb] at h
    simp only [Except.ok.injEq] at h
    subst h
    simp
  · obtain ⟨tail, st, left, buf, -, -, -, -, rfl⟩ := appendDispatch_eq_ok h
    simp

/-- Everything an APPEND can do. -/
theorem execAppend_eq_next {payload : List Byte} {s t : State} :
    execAppend payload s = .next t ↔
      ∃ u, absorb payload s = .ok u ∧
        t = (u.setTotalLength (addToTotal s.totalLength payload.length)).emit okResponse := by
  simp only [execAppend, toOutcome_eq_next, bind_eq_ok, pure_eq_ok, Except.ok.injEq]
  exact exists_congr fun u => and_congr_right fun _ => eq_comm

/-- Everything a DIGEST128 can do. -/
theorem execDigest128_eq_next {s t : State} :
    execDigest128 s = .next t ↔ ∃ w, finalize s = .ok w ∧ t = s.emit ⟨.ok, w.1, w.2⟩ := by
  simp only [execDigest128, toOutcome_eq_next, bind_eq_ok, pure_eq_ok, Except.ok.injEq]
  exact exists_congr fun w => and_congr_right fun _ => eq_comm

/-- Everything a DIGEST64 can do. -/
theorem execDigest64_eq_next {s t : State} :
    execDigest64 s = .next t ↔ ∃ w, finalize s = .ok w ∧ t = s.emit ⟨.ok, w.1, 0⟩ := by
  simp only [execDigest64, toOutcome_eq_next, bind_eq_ok, pure_eq_ok, Except.ok.injEq]
  exact exists_congr fun w => and_congr_right fun _ => eq_comm

/-- Finalize looks at the architectural state only. -/
theorem finalize_congr {s t : State} (h : s.SameArch t) : finalize t = finalize s := by
  obtain ⟨h1, h2, h3, h4⟩ := h
  simp only [finalize, finalizeShort, finalizeLong, shortMode, h1, h3, h4, readBufBytes_congr h2 h4]
  rfl

/-- Emitting a response changes no architectural state. -/
theorem State.emit_sameArch (s : State) (r : Response) : s.SameArch (s.emit r) := ⟨rfl, rfl, rfl, rfl⟩

/-- Consuming input changes no architectural state. -/
theorem State.setInput_sameArch (s : State) (bytes : List Byte) : s.SameArch (s.setInput bytes) :=
  ⟨rfl, rfl, rfl, rfl⟩

theorem State.SameArch.trans {s t u : State} (h : s.SameArch t) (h' : t.SameArch u) : s.SameArch u :=
  ⟨h'.1.trans h.1, h'.2.1.trans h.2.1, h'.2.2.1.trans h.2.2.1, h'.2.2.2.trans h.2.2.2⟩

/-- What reading the bytes of a state that holds them gives Finalize on the short path (R89). -/
theorem finalizeShort_of_holds {s : State} {bytes : List Byte} (h : s.Holds bytes) :
    finalizeShort s = short bytes s.state[0] s.state[1] := by
  simp [finalizeShort, readBufBytes_all h]

end Sys2Proof.Machine
end

