-- ==== Sys2Proof/Laws/Step.lean ====
section
/-! SUPPORT. Everything one step can do, said once (spec/30_encoding.md R60). -/

namespace Sys2Proof.Machine

/-- A step that gives a next state performed a command, answered an illegal header, or held. -/
theorem step_cases {s t : State} (h : step s = .next t) :
    (∃ i rest, decode s.input = .instr i rest ∧ exec i (s.setInput rest) = .next t) ∨
    (∃ rest, decode s.input = .illegalOpcode rest ∧ t = (s.setInput rest).emit ⟨.illegalOpcode, 0, 0⟩) ∨
    (∃ rest, decode s.input = .illegalField rest ∧ t = (s.setInput rest).emit ⟨.illegalField, 0, 0⟩) ∨
    (decode s.input = .incomplete ∧ t = s) := by
  simp only [step] at h
  split at h
  · next i rest hd => exact .inl ⟨i, rest, hd, h⟩
  · next rest hd =>
    simp only [raiseFault_eq, Host.Outcome.next.injEq] at h
    exact .inr (.inl ⟨rest, hd, h.symm⟩)
  · next rest hd =>
    simp only [raiseFault_eq, Host.Outcome.next.injEq] at h
    exact .inr (.inr (.inl ⟨rest, hd, h.symm⟩))
  · next hd =>
    simp only [Host.Outcome.next.injEq] at h
    exact .inr (.inr (.inr ⟨hd, h.symm⟩))

/-- What a packet leaves of the input is the end of the input, at least the four header bytes shorter. -/
theorem decode_instr_suffix {bs : List Byte} {i : Instr} {rest : List Byte} (h : decode bs = .instr i rest) :
    ∃ packet, bs = packet ++ rest ∧ 4 ≤ packet.length := by
  match bs with
  | b0 :: b1 :: b2 :: b3 :: tl =>
    have step : ∀ k, ∃ packet, b0 :: b1 :: b2 :: b3 :: tl = packet ++ tl.drop k ∧ 4 ≤ packet.length := fun k =>
      ⟨b0 :: b1 :: b2 :: b3 :: tl.take k, by simp, by simp⟩
    simp only [decode, takeExactly] at h
    split at h
    · simp at h
    · simp at h
    · split at h
      · next hp =>
        split at hp <;> simp at hp
        simp only [Decoded.instr.injEq] at h
        rw [← h.2, ← hp.2]
        exact step _
      · simp at h
    · split at h
      · next hp =>
        split at hp <;> simp at hp
        simp only [Decoded.instr.injEq] at h
        rw [← h.2, ← hp.2]
        exact step _
      · simp at h
    · simp only [Decoded.instr.injEq] at h
      rw [← h.2]
      exact step 0
    · simp only [Decoded.instr.injEq] at h
      rw [← h.2]
      exact step 0
  | [] | [_] | [_, _] | [_, _, _] => simp [decode] at h

end Sys2Proof.Machine
end

