-- ==== Sys2Proof/Tests/Slice0.lean ====
section
/-! SUPPORT. The author's own tests. Expected values are those of spec/95_test_vectors.md (the vector is named beside
each) or of the rule named. Then, for each statement with hypotheses, a state and operands that meet them. -/

namespace Sys2Proof.Tests

open Sys2Proof.Machine

/-! ### WellFormed: the one check refuses a payload that LEN cannot count -/

theorem test_wellFormed_refuses_long_append :
    (Instr.append (List.replicate 16777216 0)).wellFormed = false := by
  simp only [Instr.wellFormed, List.length_replicate, Config.lenMax]; decide

theorem test_wellFormed_accepts_longest_append :
    (Instr.append (List.replicate 16777215 0)).wellFormed = true := by
  simp only [Instr.wellFormed, List.length_replicate, Config.lenMax]; decide

/-! ### Decoding: words written out from R67, and 95_test_vectors.md 6.1 -/

theorem test_decode_init : decode [0x01, 0x00, 0x00, 0x00, 0x01, 0, 0, 0, 0, 0, 0, 0, 0, 0, 0, 0, 0, 0, 0, 0x80, 0xaa] =
    .instr (.init 1 0x8000000000000000) [0xaa] := by decide

theorem test_decode_append : decode [0x02, 0x03, 0x00, 0x00, 0x61, 0x62, 0x63, 0x04] =
    .instr (.append [0x61, 0x62, 0x63]) [0x04] := by decide

theorem test_decode_digest64 : decode [0x03, 0x00, 0x00, 0x00] = .instr .digest64 [] := by decide

theorem test_decode_digest128 : decode [0x04, 0x00, 0x00, 0x00] = .instr .digest128 [] := by decide

theorem test_decode_zero_word_is_illegal : decode [0x00, 0x00, 0x00, 0x00, 0x03] = .illegalOpcode [0x03] := by decide

theorem test_decode_unknown_opcode_ignores_arg : decode [0x05, 0x10, 0x00, 0x00] = .illegalOpcode [] := by decide

theorem test_decode_init_with_arg_takes_no_payload :
    decode ([0x01, 0x01, 0x00, 0x00] ++ List.replicate 16 0x03) = .illegalField (List.replicate 16 0x03) := by decide

theorem test_decode_digest128_bit31 : decode [0x04, 0x00, 0x00, 0x80] = .illegalField [] := by decide

theorem test_decode_append_short_payload : decode [0x02, 0x03, 0x00, 0x00, 0x61, 0x62] = .incomplete := by decide

theorem test_decode_append_len_256 : decodeHeader 0x00010002 = .append ∧ payloadLength 0x00010002 = 256 := by decide

theorem test_encode_init : encode (.init 0x0123456789abcdef 0xfedcba9876543210) =
    [0x01, 0, 0, 0, 0xef, 0xcd, 0xab, 0x89, 0x67, 0x45, 0x23, 0x01,
     0x10, 0x32, 0x54, 0x76, 0x98, 0xba, 0xdc, 0xfe] := by decide

theorem test_table_words : decodeTableWord 32 1 = some (.init 0 0) ∧ decodeTableWord 32 2 = some (.append []) ∧
    decodeTableWord 32 0x302 = some (.append [0, 0, 0]) ∧ decodeTableWord 32 3 = some .digest64 ∧
    decodeTableWord 32 4 = some .digest128 ∧ decodeTableWord 32 0x103 = none := by decide

/-- R76: "abc" on the word carrier, the last word zero-padded. -/
theorem test_decode_words : encodeWords (.append [0x61, 0x62, 0x63, 0x64, 0x65]) = [0x502, 0x64636261, 0x65] ∧
    decodeWords [0x302, 0x00636261, 0x3] = .instr (.append [0x61, 0x62, 0x63]) [0x3] := by decide

/-! ### Primitives (95_test_vectors.md section 2) -/

theorem test_rotl64 : rotl64 1 11 = 0x800 ∧ rotl64 0x8000000000000000 1 = 1 ∧
    rotl64 0xdeadbeefdeadbeef 63 = 0xef56df77ef56df77 ∧ rotl64 0x0123456789abcdef 0 = 0x0123456789abcdef := by decide

theorem test_le : le [1, 2, 3, 4, 5, 6, 7, 8] = 0x0807060504030201 ∧
    le [0xaa, 0xbb, 0xcc, 0xdd] = 0x00000000ddccbbaa := by decide

theorem test_total_saturates : addToTotal 0xfffffffffffffffe 5 = 0xffffffffffffffff := by decide

/-! ### The networks (vectors M3, E3, F2, SM3, SE3; F6 is what END is not) -/

theorem test_mix_M3 : mix (wordsOf (pat 96 0)) (seeded 0 0) =
    #v[0x9af945eec8d25495, 0x1daee3844435d2e8, 0x248a12ade0198ea9, 0xbf7723c3e38141c9,
       0x38e07d95dfa27b6a, 0xd896457523ad1cb6, 0x41b85127ffa84f8d, 0x06ffa7f1681c8ce9,
       0x872aa9ed317d9c8a, 0xc5db7b739854500a, 0x3ca00dcdef3e248c, 0x63178fac9e5dc443] := by decide +kernel

theorem test_endPartial_E3 : endPartial #v[0, 1, 2, 3, 4, 5, 6, 7, 8, 9, 10, 11] =
    #v[0xa893cf5efc9c2c1f, 0xdc3dadceda442406, 0x0000100000070009, 0x000010340007000c,
       0x000010340127000c, 0x01c01334012b000b, 0x01ce1348012b206b, 0x020ee34c9d2b4c62,
       0x04756371fd2baca0, 0x4f3d7bf270b07eac, 0xdc3dbdceda44240b, 0xaeb2b011d58dc7f4] := by decide +kernel

theorem test_end_F4 : endNet (wordsOf (pat 96 0)) (seeded 0 0) =
    #v[0x0eb0b2883a99c0c3, 0x1a15665d7f11bc54, 0xe978b2b1cbe756f6, 0x61c648f9f85b544d,
       0xacf13e423b069618, 0xed27704460d613a2, 0x3819f9d4243f1e03, 0x81721d4530e44082,
       0x2f668230926fba28, 0x627a412de3a23592, 0xbcab3225a47efd7a, 0x354e5ae9a52aa008] := by decide +kernel

theorem test_shortMix_SM3 : shortMix #v[1, 2, 3, 4] =
    #v[0x2bf7518bd9f16648, 0x9a082a6452e0d6f5, 0x8811513fd3edb160, 0x03826f115d34e2bd] := by decide +kernel

theorem test_shortEnd_SE3 : shortEnd #v[1, 2, 3, 4] =
    #v[0xd05bc6ce4c6b2efe, 0x8616ffe259af1463, 0xcc8d19644d5efedd, 0x6491d728a1b49620] := by decide +kernel

/-- The carry corner case of 4.2: fifteen bytes ff, seeds (0, 0), before SHORT_END. -/
theorem test_tail_carries : (shortFold (List.replicate 15 0xff) 0 0).toOption =
    some #v[0, 0, 0xdeadbeefdeadbeee, 0xeeadbeefdeadbeee] := by decide +kernel

/-- H3: pat(63), one chunk, the half chunk and a tail of 15. -/
theorem test_short_H3 : (short (pat 63 0) 0 0).toOption = some (0xe67c61fcfbc0b5b9, 0x767b4fe854a21d6b) := by
  decide +kernel

/-! ### The commands, one step each -/

/-- The next state, where there is one. -/
def after (o : Host.Outcome State Fault Refusal) : Option State :=
  match o with
  | .next s => some s
  | _ => none

/-- The last response, where there is a next state with one. -/
def lastAnswer (o : Host.Outcome State Fault Refusal) : Option Response := (after o).bind fun s => s.output.getLast?

/-- A state under seeds (0, 0) with `bytes` buffered, `total` bytes counted and `v` in STATE. -/
def holding (v : Words12) (bytes : List Byte) (total : BitVec 64) : State :=
  { State.reset with
    state := v, buf := (List.range bytes.length).zip bytes,
    bufferedLength := BitVec.ofNat 8 bytes.length, totalLength := total }

/-- Vector M4: STATE after two blocks of the stream 00 01 02 .. under seeds (0, 0). -/
def vectorM4 : Words12 :=
  #v[0xe7f76ce372251f38, 0x86f9e648e5d9d57e, 0x40b39a265ad41fe8, 0xa96abc3ff170dedd,
     0xfe837b13c504f607, 0xf120699daef105ea, 0x41ed16a658b00b5d, 0xeec932bf851b57da,
     0x6f8684126b12215f, 0x6779358cc17c85c2, 0xefdd94a4c198ab40, 0xb33f13ff3dfe4bcf]

/-- R80, example. -/
theorem test_init : (after (exec (.init 0x0123456789abcdef 0xfedcba9876543210) (holding vectorM4 (pat 8 0) 200))).map
    (fun t => (t.state[3], t.state[4], t.state[5], t.totalLength, t.bufferedLength)) =
    some (0x0123456789abcdef, 0xfedcba9876543210, 0xdeadbeefdeadbeef, 0, 0) := by decide +kernel

/-- P3, second APPEND: two blocks mixed, eight bytes left at offset 0. -/
theorem test_append_dispatches : (after (exec (.append (pat 100 100)) (holding (seeded 0 0) (pat 100 0) 100))).map
    (fun t => (t.state, t.totalLength, t.bufferedLength, t.buf.read 0, t.buf.read 7)) =
    some (vectorM4, 200, 8, some 0xc0, some 0xc7) := by decide +kernel

/-- 5.2, `append pat(100)`; `append pat(91, 100)`: 191 bytes are buffered and nothing is mixed. -/
theorem test_append_buffers : (after (exec (.append (pat 91 100)) (holding (seeded 0 0) (pat 100 0) 100))).map
    (fun t => (t.state[0], t.totalLength, t.bufferedLength, t.buf.read 100, t.buf.read 190)) =
    some (0, 191, 191, some 0x64, some 0xbe) := by decide +kernel

/-- V1, the source's known answer. -/
theorem test_digest64_V1 : lastAnswer (exec .digest64 State.reset) = some ⟨.ok, 2533000996631939353, 0⟩ := by
  decide +kernel

/-- P3, the third digest: a pending block is mixed in scratch. -/
theorem test_digest64_pending_block : lastAnswer (exec .digest64 (holding vectorM4 (pat 96 192) 288)) =
    some ⟨.ok, 0xcd1959f5c2c45178, 0⟩ := by decide +kernel

/-- 4.1, n = 191, seeds (0, 0): the longest short-path message. -/
theorem test_digest128_191 : lastAnswer (exec .digest128 (holding (seeded 0 0) (pat 191 0) 191)) =
    some ⟨.ok, 0x71043a03b5bb462f, 0xfe7d0ad0a893b638⟩ := by decide +kernel

/-- F5: the long path with eight bytes buffered. -/
theorem test_digest128_F5 : lastAnswer (exec .digest128 (holding vectorM4 (pat 8 192) 200)) =
    some ⟨.ok, 0xfe37a87670835f72, 0xa2a00ec680624bf2⟩ := by decide +kernel

/-- P4: a fault consumes its header and changes nothing else. -/
theorem test_fault_step : after (step ((holding (seeded 0 0) [0x61] 1).setInput [0x01, 0x01, 0, 0, 0x04])) =
    some { holding (seeded 0 0) [0x61] 1 with input := [0x04], output := [⟨.illegalField, 0, 0⟩] } := by
  decide +kernel

/-- U1: reading past the valid region has no value, although a stale byte is there. -/
theorem test_stale_byte_has_no_value :
    ((readBufByte { holding (seeded 0 0) [0x61, 0x62] 2 with bufferedLength := 1 } 1).toOption,
     (readBufByte { holding (seeded 0 0) [0x61, 0x62] 2 with bufferedLength := 1 } 0).toOption) =
    (none, some 0x61) := by decide +kernel

/-- The row's word, placed for the fetch, is what the first step performs. -/
theorem test_withFetchWord : after (step (State.reset.withFetchWord 32 0x302)) =
    after (exec (.append [0, 0, 0]) State.reset) := by decide +kernel

/-! ### The assembler's notation (R71 to R73) -/

theorem test_assemble : (assembleLine "append \"abc\" # text".toList, assembleLine "Append pat(2, 255)".toList,
    assembleLine "init 1, 0x10".toList, assembleLine "append 6".toList) =
    (some [.append [0x61, 0x62, 0x63]], some [.append [0xff, 0x00]], some [.init 1 16], none) := by decide +kernel

theorem test_assemble_hash64 : assembleLine "hash64 1, 2,".toList =
    some [.init 1 2, .append [], .digest64] := by decide +kernel

theorem test_response_bytes : Response.toBytes ⟨.illegalField, 1, 0x0200000000000000⟩ =
    [0x02, 1, 0, 0, 0, 0, 0, 0, 0, 0, 0, 0, 0, 0, 0, 0, 2] := by decide

/-! ### The hypotheses of the statements can be met -/

/-- InitSeedsStateAndZeroesCounters, NonzeroArgIsAnsweredIllegalField: the smallest and the greatest bad field. -/
theorem witness_illegal_field :
    leBytes 4 (0x00000101 : Header).toNat ++ [0x03] = [0x01, 0x01, 0x00, 0x00, 0x03] ∧
    (0x00000101 : Header).opc = 0x01 ∧ (0x00000101 : Header).arg ≠ 0 ∧
    (0xffffff03 : Header).opc = 0x03 ∧ (0xffffff03 : Header).arg ≠ 0 ∧
    (0x80000004 : Header).opc = 0x04 ∧ (0x80000004 : Header).arg ≠ 0 ∧ (0xffffff02 : Header).opc = 0x02 := by decide

/-- UnknownOpcodeIsAnsweredIllegalOpcode: OPC 0x00, 0x05 and 0xff, the first two neighbours of legal codes. -/
theorem witness_illegal_opcode :
    leBytes 4 (0xffffff00 : Header).toNat = [0x00, 0xff, 0xff, 0xff] ∧
    (0xffffff00 : Header).opc ≠ 0x01 ∧ (0xffffff00 : Header).opc ≠ 0x02 ∧ (0xffffff00 : Header).opc ≠ 0x03 ∧
    (0xffffff00 : Header).opc ≠ 0x04 ∧ (0x00000005 : Header).opc ≠ 0x04 ∧ (0x00000005 : Header).opc ≠ 0x01 ∧
    (0x000000ff : Header).opc ≠ 0x02 := by decide

/-- AppendBelowThresholdCopiesToBuf, ZeroLengthAppendChangesNothing: 191 bytes in all. -/
theorem witness_append_below : (holding (seeded 0 0) (pat 100 0) 100).bufferedLength.toNat + (pat 91 100).length < 192 ∧
    (holding (seeded 0 0) (pat 191 0) 191).bufferedLength.toNat ≤ 191 := by decide +kernel

/-- AppendFromThresholdMixesEveryFullBlock: 192 bytes in all, from a full and from an empty buffer. -/
theorem witness_append_from : (holding (seeded 0 0) (pat 191 0) 191).Holds (pat 191 0) ∧
    192 ≤ (pat 191 0).length + (pat 1 191).length ∧
    (holding (seeded 0 0) [] 0).Holds [] ∧ 192 ≤ ([] : List Byte).length + (pat 192 0).length := by
  unfold State.Holds; decide +kernel

/-- AppendCountsBytesWithSaturation, ResponseFormat: an APPEND that gives a next state. -/
theorem witness_append_next : ∃ t, exec (.append [0x61]) State.reset = .next t := ⟨_, rfl⟩

/-- ResponseFormat: an INIT that gives a next state. -/
theorem witness_init_next : ∃ t, exec (.init 1 2) State.reset = .next t := ⟨_, rfl⟩

/-- DigestBelowThresholdIsShort: TOTAL_LENGTH 191. -/
theorem witness_digest_short : (holding (seeded 0 0) (pat 191 0) 191).Holds (pat 191 0) ∧
    (holding (seeded 0 0) (pat 191 0) 191).totalLength.toNat < 192 := by
  unfold State.Holds; decide +kernel

/-- DigestFromThresholdFinalizesPaddedBlock: TOTAL_LENGTH 192 with nothing buffered, and 95, 96 and 191 bytes
buffered. -/
theorem witness_digest_long :
    ((holding vectorM4 [] 192).Holds [] ∧ 192 ≤ (holding vectorM4 [] 192).totalLength.toNat) ∧
    ((holding vectorM4 (pat 95 192) 287).Holds (pat 95 192) ∧
      192 ≤ (holding vectorM4 (pat 95 192) 287).totalLength.toNat) ∧
    ((holding vectorM4 (pat 96 192) 288).Holds (pat 96 192) ∧
      192 ≤ (holding vectorM4 (pat 96 192) 288).totalLength.toNat) ∧
    ((holding vectorM4 (pat 191 192) 383).Holds (pat 191 192) ∧
      192 ≤ (holding vectorM4 (pat 191 192) 383).totalLength.toNat) := by
  unfold State.Holds; decide +kernel

/-- Digest64IsLowWordOfDigest128, DigestsArePeeks, ResponseFormat: digests that give a next state. -/
theorem witness_digest_next : (∃ t, exec .digest128 State.reset = .next t) ∧ (∃ t, exec .digest64 State.reset = .next t) ∧
    ∃ u, exec (.append [0x61]) State.reset = .next u := ⟨⟨_, rfl⟩, ⟨_, rfl⟩, ⟨_, rfl⟩⟩

/-- A state that meets the invariants, with a packet on its input: three bytes buffered. -/
def threeBytes : State := (holding (seeded 1 2) [0x61, 0x62, 0x63] 3).setInput [0x02, 0x01, 0x00, 0x00, 0x64]

theorem threeBytes_inv : threeBytes.Inv where
  bufWf := by decide
  bufValid := by decide
  bufferedBound := by decide
  totalBound := by decide
  shortBuffered := fun _ => by decide
  shortSeeded := fun _ => by decide
  longBlocks := fun h => absurd h (by decide)
  longDispatched := fun h => absurd h (by decide)

/-- DigestBelowThresholdIsShort, last clause. -/
theorem witness_digest_short_invariant : threeBytes.Holds [0x61, 0x62, 0x63] ∧ threeBytes.totalLength.toNat < 192 ∧
    threeBytes.Inv := ⟨by unfold State.Holds; decide, by decide, threeBytes_inv⟩

/-- LegalCommandsCannotFail, StepKeepsInvariants, OneResponsePerPacket, StepPerformsDecodedCommand,
OnlyInitAndAppendWriteState. -/
theorem witness_invariant_step : threeBytes.Inv ∧ (∃ t, step threeBytes = .next t) ∧
    decode threeBytes.input = .instr (.append [0x64]) [] := ⟨threeBytes_inv, ⟨_, rfl⟩, by decide⟩

/-- ChunkInvariance: a cut across offsets 96 and 192 against no cut. -/
theorem witness_chunks : threeBytes.Inv ∧ [pat 95 0, [], pat 200 95].flatten = [pat 295 0].flatten :=
  ⟨threeBytes_inv, by decide +kernel⟩

/-- LongModeLastsUntilInit: TOTAL_LENGTH 192, and a digest on the input. -/
theorem witness_long_mode : longMode (holding vectorM4 [] 192) = true ∧
    ∃ t, step ((holding vectorM4 [] 192).setInput [0x03, 0, 0, 0]) = .next t := ⟨by decide, ⟨_, rfl⟩⟩

/-- StaleBytesCannotBeObserved: the same valid region, and different bytes behind it. -/
theorem witness_stale_bytes : (holding (seeded 0 0) [0x61] 1).Holds [0x61] ∧
    ({ holding (seeded 0 0) [0x61] 1 with buf := [(0, 0x61), (1, 0xff)] } : State).Holds [0x61] ∧
    ∃ t, exec .digest64 (holding (seeded 0 0) [0x61] 1) = .next t :=
  ⟨by unfold State.Holds; decide, by unfold State.Holds; decide, ⟨_, rfl⟩⟩

/-- StateAbsorbsWholeBlocksOfStream. -/
theorem witness_stream_length : [pat 100 0, pat 100 100].flatten.length < 2 ^ 64 := by decide +kernel

/-- TailTableIsTwoLittleEndianWords and ShortOfAtMostFifteenBytes: one byte, and fifteen. -/
theorem witness_tails : 1 ≤ (pat 1 0).length ∧ (pat 15 0).length ≤ 15 := by decide

/-- ShortOfEveryMessage: the digests that 95_test_vectors.md 4.1 gives for lengths 0, 15, 16, 31, 32 and 191, seeds (0, 0):
no chunk with and without a tail, the half chunk with and without one, a chunk alone, and all phases. -/
theorem witness_short_lengths : [0, 15, 16, 31, 32, 191].map (fun n => (short (pat n 0) 0 0).toOption) =
    [some (0x232706fc6bf50919, 0x8b72ee65b4e851c7), some (0xd9aa86de65dc278b, 0xda240564552a4a10),
     some (0x340225d6331f2651, 0x886e7c23939a583d), some (0xa3962a6c761ffe09, 0x678fc7da4ac3197a),
     some (0x57f50b68e2623fd2, 0x893924eff994198b), some (0x71043a03b5bb462f, 0xfe7d0ad0a893b638)] := by
  decide +kernel

/-- EnginesReadWithinTheirSequences: two blocks of 192 bytes, and a tail of 95. -/
theorem witness_within : 96 * 2 ≤ (pat 192 0).length ∧ (pat 95 0).length ≤ 95 := by decide +kernel

/-- RotationMovesEveryBit, WordsAreLittleEndian: the greatest amount, eight bytes, a block. -/
theorem witness_widths : (63 : Nat) ≤ 63 ∧ 1 ≤ 63 ∧ (pat 8 1).length ≤ 8 ∧ (pat 96 0).length = 96 := by decide

/-- DecodeOfEncode, WordCarrierCarriesTheSamePackets, StepsOverPacketsRunTheCommands: commands with an encoding. -/
theorem witness_encoding : [Instr.init 1 2, .append (pat 5 0), .digest64, .digest128].all Instr.wellFormed = true ∧
    (threeBytes.setInput (encodeAll [.digest64] ++ [0x01])).input = encodeAll [.digest64] ++ [0x01] := by decide

/-- DecodedCommandIsItsOwnPacket. -/
theorem witness_decoded : decode [0x02, 0x01, 0x00, 0x00, 0x61, 0x03] = .instr (.append [0x61]) [0x03] := by decide

/-- OneResponsePerPacket: a packet of four header bytes and the one byte the header calls for. -/
theorem witness_one_packet : threeBytes.input = leBytes 4 (0x00000102 : Header).toNat ++ [0x64] ++ [] ∧
    [(0x64 : Byte)].length = payloadLength 0x00000102 ∧ ∃ t, step threeBytes = .next t ∧ t.input = [] :=
  ⟨by decide, by decide, ⟨_, rfl, by decide⟩⟩

/-- DecodeFaultChangesNothing, ResponseFormat: both faults. -/
theorem witness_decode_faults : decode [0x00, 0x00, 0x00, 0x00] = .illegalOpcode [] ∧
    decode [0x03, 0x01, 0x00, 0x00] = .illegalField [] := by decide

/-- HeaderTellsPayloadLength: each clause: a payload of 256 bytes and one short, of 16, of none; an illegal INIT. -/
theorem witness_payload_lengths : (0x00010002 : Header).opc = 0x02 ∧
    (pat 256 0).length = payloadLength 0x00010002 ∧ (pat 255 0).length < payloadLength 0x00010002 ∧
    (pat 16 0).length = payloadLength 0x00000001 ∧ (pat 15 0).length < payloadLength 0x00000001 ∧
    (0x00000101 : Header).opc ≠ 0x02 ∧ (0x00000101 : Header) ≠ 0x00000001 := by decide +kernel

/-- InitPayloadHoldsSeeds. -/
theorem witness_seed_payload : (pat 16 0).length = 16 := by decide

/-- IncompletePacketHolds: the last byte missing, then arriving. -/
theorem witness_incomplete : ([0x02, 0x02, 0x00, 0x00, 0x61] : List Byte) = leBytes 4 (0x202 : Header).toNat ++ [0x61] ∧
    [(0x61 : Byte)].length < payloadLength 0x202 ∧
    [(0x61 : Byte)].length + [(0x62 : Byte)].length = payloadLength 0x202 := by decide

/-- UnitWithoutHeaderIsIdle: three bytes of a header. -/
theorem witness_no_header : (State.reset.setInput [0x01, 0x00, 0x00]).input.length < 4 := by decide

/-- UnitsShareNothing: a step of the second of two units. -/
theorem witness_units : ∃ vs, Units.step [State.reset, threeBytes] 1 = .next vs := ⟨_, rfl⟩

end Sys2Proof.Tests
end

section
/-! PROOFS. Rotation bit by bit (spec/00_scope.md R12) and little-endian words byte by byte (R13). -/

namespace Sys2Proof

/-! ### Rotation -/

theorem rotl64_eq_shifts (x : Word) {k : Nat} (hk : k < 64) : rotl64 x k = x <<< k ||| x >>> (64 - k) := by
  rw [rotl64, BitVec.rotateLeft_def, Nat.mod_eq_of_lt hk]

@[simp] theorem rotl64_zero (x : Word) : rotl64 x 0 = x := by
  simp [rotl64_eq_shifts x (show 0 < 64 by decide), BitVec.ushiftRight_eq_zero]

/-- Where a bit of the result comes from. -/
theorem getLsbD_rotl64 (x : Word) {k i : Nat} (hk : k < 64) (hi : i < 64) :
    (rotl64 x k).getLsbD i = x.getLsbD ((i + (64 - k)) % 64) := by
  rw [rotl64, BitVec.getLsbD_rotateLeft, Nat.mod_eq_of_lt hk]
  by_cases hik : i < k
  · have hwrap : (i + (64 - k)) % 64 = 64 - k + i := by omega
    simp [hik, hwrap]
  · have hshift : (i + (64 - k)) % 64 = i - k := by omega
    simp [hik, hi, hshift]

/-- Where a bit of the operand goes (R12). -/
theorem getLsbD_rotl64_add_mod (x : Word) {k i : Nat} (hk : k < 64) (hi : i < 64) :
    (rotl64 x k).getLsbD ((i + k) % 64) = x.getLsbD i := by
  have hback : ((i + k) % 64 + (64 - k)) % 64 = i := by omega
  rw [getLsbD_rotl64 x hk (Nat.mod_lt _ (by decide)), hback]

/-- Two rotations whose amounts make up a whole turn cancel. -/
theorem rotl64_rotl64_cancel (x : Word) {j k : Nat} (hj : j < 64) (hk : k < 64) (hjk : (j + k) % 64 = 0) :
    rotl64 (rotl64 x j) k = x := by
  refine BitVec.eq_of_getLsbD_eq fun i hi => ?_
  have hturn : ((i + (64 - k)) % 64 + (64 - j)) % 64 = i := by omega
  rw [getLsbD_rotl64 _ hk hi, getLsbD_rotl64 x hj (Nat.mod_lt _ (by decide)), hturn]

theorem rotr64_rotl64 (x : Word) {k : Nat} (hk : k < 64) : rotr64 (rotl64 x k) k = x :=
  rotl64_rotl64_cancel x hk (by omega) (by omega)

theorem rotl64_rotr64 (x : Word) {k : Nat} (hk : k < 64) : rotl64 (rotr64 x k) k = x :=
  rotl64_rotl64_cancel x (by omega) hk (by omega)

/-! ### Little-endian words -/

theorem leNat_eq_sum (b : List Byte) : leNat b = ∑ j : Fin b.length, b[j].toNat * 2 ^ (8 * j.val) := by
  induction b with
  | nil => simp [leNat]
  | cons x xs ih =>
    have hshift (j : Nat) : 2 ^ (8 * (j + 1)) = 256 * 2 ^ (8 * j) := by ring
    simp [leNat, Fin.sum_univ_succ, ih, hshift, Finset.mul_sum, mul_left_comm]

/-- Byte `k` of the number is byte `k` of the sequence, zero past its end. -/
theorem leNat_div_pow_mod (b : List Byte) (k : Nat) : leNat b / 256 ^ k % 256 = ((b[k]?).getD 0).toNat := by
  induction b generalizing k with
  | nil => simp [leNat]
  | cons x xs ih =>
    have hx := x.isLt
    cases k with
    | zero => simp [leNat]; omega
    | succ k =>
      have hrest : leNat (x :: xs) / 256 = leNat xs := by simp only [leNat]; omega
      rw [pow_succ', ← Nat.div_div_eq_div_mul, hrest, ih, List.getElem?_cons_succ]

/-- A word holds the whole number of at most eight bytes. -/
theorem toNat_le {b : List Byte} (hb : b.length ≤ 8) : (le b).toNat = leNat b := by
  have hlt : leNat b < 2 ^ 64 := calc
    leNat b < 256 ^ b.length := leNat_lt b
    _ ≤ 256 ^ 8 := Nat.pow_le_pow_right (by decide) hb
    _ = 2 ^ 64 := by decide
  rw [le, BitVec.toNat_ofNat, Nat.mod_eq_of_lt hlt]

theorem extractLsb'_le {b : List Byte} (hb : b.length ≤ 8) (k : Nat) :
    (le b).extractLsb' (8 * k) 8 = (b[k]?).getD 0 := by
  apply BitVec.eq_of_toNat_eq
  rw [BitVec.extractLsb'_toNat, toNat_le hb, Nat.shiftRight_eq_div_pow, pow_mul]
  exact leNat_div_pow_mod b k

theorem getElem_wordsOf (B : List Byte) (i : Fin 12) : (wordsOf B)[i] = le ((B.drop (8 * i.val)).take 8) := by
  simp [wordsOf]

end Sys2Proof

open Sys2Proof

/-- Settles O33: the two cancellations are whole turns of `rotl64`. -/
theorem rotationMovesEveryBit : Obligations.RotationMovesEveryBit := by
  intro x k hk
  have hk' : k < 64 := by omega
  exact ⟨fun _ => rotl64_eq_shifts x hk', rotl64_zero x, rfl, fun i hi => getLsbD_rotl64_add_mod x hk' hi,
    rotr64_rotl64 x hk', rotl64_rotr64 x hk'⟩

/-- Settles O34, by induction on the bytes. -/
theorem wordsAreLittleEndian : Obligations.WordsAreLittleEndian :=
  ⟨fun b hb => (toNat_le hb).trans (leNat_eq_sum b), fun _ hb k _ => extractLsb'_le hb k,
    fun B i _ => getElem_wordsOf B i⟩

end

section
/-! PROOFS. Which steps write architectural state (spec/00_scope.md R16, spec/10_state.md R21). -/

namespace Sys2Proof.Machine

theorem State.SameArch.refl (s : State) : s.SameArch s := ⟨rfl, rfl, rfl, rfl⟩

/-- The digests write no architectural state; the other two commands are named. -/
theorem exec_sameArch_or_writer {i : Instr} {s t : State} (h : exec i s = .next t) :
    s.SameArch t ∨ (∃ seed1 seed2, i = .init seed1 seed2) ∨ (∃ payload, i = .append payload) := by
  cases i with
  | init seed1 seed2 => exact .inr (.inl ⟨seed1, seed2, rfl⟩)
  | append payload => exact .inr (.inr ⟨payload, rfl⟩)
  | digest64 =>
    obtain ⟨w, -, rfl⟩ := execDigest64_eq_next.1 h
    exact .inl (s.emit_sameArch _)
  | digest128 =>
    obtain ⟨w, -, rfl⟩ := execDigest128_eq_next.1 h
    exact .inl (s.emit_sameArch _)

/-- Consuming input and emitting a response, as a decode fault does, changes no architectural state (R146). -/
theorem State.setInput_emit_sameArch (s : State) (rest : List Byte) (r : Response) :
    s.SameArch ((s.setInput rest).emit r) :=
  (s.setInput_sameArch rest).trans (State.emit_sameArch _ r)

end Sys2Proof.Machine

open Sys2Proof Sys2Proof.Machine

/-- Settles O19, by cases on what the step did. -/
theorem onlyInitAndAppendWriteState : Obligations.OnlyInitAndAppendWriteState := by
  intro s t h
  obtain ⟨i, rest, hd, hx⟩ | ⟨rest, -, rfl⟩ | ⟨rest, -, rfl⟩ | ⟨-, rfl⟩ := step_cases h
  · obtain hsame | ⟨seed1, seed2, rfl⟩ | ⟨payload, rfl⟩ := exec_sameArch_or_writer hx
    · exact .inl ((s.setInput_sameArch rest).trans hsame)
    · exact .inr (.inl ⟨seed1, seed2, rest, hd⟩)
    · exact .inr (.inr ⟨payload, rest, hd⟩)
  · exact .inl (s.setInput_emit_sameArch rest _)
  · exact .inl (s.setInput_emit_sameArch rest _)
  · exact .inl (.refl t)

end

section
/-! PROOFS. The valid region of BUF (spec/10_state.md R22, R23): reads inside it, and what a copy to BUF makes of it. -/

namespace Sys2Proof.Machine

/-- A read of BUF has a value inside the valid region only (R23, R46). -/
theorem readBufByte_eq_ok {s : State} {a : Nat} {b : Byte} :
    readBufByte s a = .ok b ↔ a < 192 ∧ a < s.bufferedLength.toNat ∧ s.buf.read a = some b := by
  rw [readBufByte]
  split
  · next hoff => simp [Nat.not_lt.2 hoff]
  · next hoff =>
    split
    · next hvalid => simp [Nat.not_lt.2 hvalid]
    · next hvalid => cases s.buf.read a <;> simp [Nat.lt_of_not_le hoff, Nat.lt_of_not_le hvalid]

theorem State.Holds.bufferedLength_eq {s : State} {bytes : List Byte} (h : s.Holds bytes) :
    s.bufferedLength.toNat = bytes.length := h.1

theorem State.Holds.length_lt {s : State} {bytes : List Byte} (h : s.Holds bytes) : bytes.length < 192 := h.2.1

theorem State.Holds.read {s : State} {bytes : List Byte} (h : s.Holds bytes) {a : Nat} (ha : a < bytes.length) :
    s.buf.read a = bytes[a]? := h.2.2 a ha

/-- What a state holds depends on BUF and BUFFERED_LENGTH only. -/
theorem State.Holds.congr {s t : State} {bytes : List Byte} (h : s.Holds bytes) (hb : t.buf = s.buf)
    (hl : t.bufferedLength = s.bufferedLength) : t.Holds bytes := by
  simpa only [State.Holds, hb, hl] using h

theorem State.SameArch.holds {s t : State} {bytes : List Byte} (hst : s.SameArch t) (h : s.Holds bytes) :
    t.Holds bytes := by
  obtain ⟨-, hbuf, -, hlen⟩ := hst
  exact h.congr hbuf hlen

theorem holds_nil {s : State} (h : s.bufferedLength = 0) : s.Holds [] := ⟨by simp [h], by decide, nofun⟩

/-- A state whose valid region is filled holds some sequence of bytes. -/
theorem State.Inv.exists_holds {s : State} (h : s.Inv) : ∃ bytes, s.Holds bytes := by
  refine ⟨(List.range s.bufferedLength.toNat).map fun a => (s.buf.read a).getD 0, by simp,
    by simpa using Nat.lt_succ_of_le h.bufferedBound, fun a ha => ?_⟩
  have ha' : a < s.bufferedLength.toNat := by simpa using ha
  obtain ⟨b, hb⟩ := Option.isSome_iff_exists.1 (h.bufValid a ha')
  simp [ha', hb]

/-- Bytes copied behind the valid region, and counted, extend what the state holds (R82). -/
theorem State.Holds.append {s : State} {bytes payload : List Byte} {m : Memory} (h : s.Holds bytes)
    (hw : writeBufBytes s.buf bytes.length payload = .ok m) (hlt : bytes.length + payload.length < 192) :
    ((s.setBuf m).setBufferedLength (BitVec.ofNat 8 (bytes.length + payload.length))).Holds (bytes ++ payload) := by
  refine ⟨?_, by simpa using hlt, fun a ha => ?_⟩
  · simp only [State.setBufferedLength_bufferedLength, BitVec.toNat_ofNat, List.length_append]
    omega
  · rw [List.length_append] at ha
    simp only [State.setBufferedLength_buf, State.setBuf_buf, writeBufBytes_read hw]
    split
    · next hin => rw [List.getElem?_append_right hin.1]
    · next hin =>
      have hold : a < bytes.length := by omega
      rw [h.read hold, List.getElem?_append_left hold]

/-- Bytes copied to the start of BUF, and counted, are what the state holds (R83). -/
theorem holds_of_write_zero {s : State} {bytes : List Byte} {m : Memory} (hw : writeBufBytes s.buf 0 bytes = .ok m)
    (hlt : bytes.length < 192) : ((s.setBuf m).setBufferedLength (BitVec.ofNat 8 bytes.length)).Holds bytes := by
  refine ⟨?_, hlt, fun a ha => ?_⟩
  · simp only [State.setBufferedLength_bufferedLength, BitVec.toNat_ofNat]
    omega
  · simp [writeBufBytes_read hw, ha]

end Sys2Proof.Machine

open Sys2Proof Sys2Proof.Machine

/-- Settles O4. -/
theorem bufReadsHaveValuesInValidRegionOnly : Obligations.BufReadsHaveValuesInValidRegionOnly :=
  fun _ _ _ => readBufByte_eq_ok

end

section
/-! PROOFS. MIX over the blocks of a sequence, as a fold over their indices (spec/40_streaming_commands.md R83). -/

namespace Sys2Proof.Machine

/-- MIX over the first `n` blocks of `S`, oldest first. -/
def mixFold (n : Nat) (S : List Byte) (h : Words12) : Words12 :=
  (List.range n).foldl (fun st k => mix (wordsOf ((S.drop (96 * k)).take 96)) st) h

@[simp] theorem mixFold_zero (S : List Byte) (h : Words12) : mixFold 0 S h = h := rfl

theorem mixFold_one (S : List Byte) (h : Words12) : mixFold 1 S h = mix (wordsOf (S.take 96)) h := by
  simp [mixFold]

/-- The blocks can be mixed in two goes. -/
theorem mixFold_add (m n : Nat) (S : List Byte) (h : Words12) :
    mixFold (m + n) S h = mixFold n (S.drop (96 * m)) (mixFold m S h) := by
  simp [mixFold, List.range_add, List.foldl_map, Nat.mul_add]

/-- What stands behind the blocks mixed does not matter. -/
theorem mixFold_append_right {n : Nat} {S : List Byte} (T : List Byte) (h : Words12) (hn : 96 * n ≤ S.length) :
    mixFold n (S ++ T) h = mixFold n S h := by
  refine List.foldl_ext _ _ _ fun st k hk => ?_
  have hk' : k < n := List.mem_range.1 hk
  rw [List.drop_append_of_le_length (by omega), List.take_append_of_le_length (by simp; omega)]

/-- MIX over blocks that are there completes, and is the fold (R51, R83). -/
theorem mixBlocks_eq_mixFold {n : Nat} {S : List Byte} (h : Words12) (hn : 96 * n ≤ S.length) :
    mixBlocks n S h = .ok (mixFold n S h) := by
  induction n generalizing S h with
  | zero => rfl
  | succ n ih =>
    have hslice : sliceAt S 0 Config.blockSize = .ok (S.take 96) := sliceAt_ok (by simp only [Config.blockSize]; omega)
    have hwords : blockWords (S.take 96) = .ok (wordsOf (S.take 96)) := blockWords_ok (by simp; omega)
    have hrest : 96 * n ≤ (S.drop Config.blockSize).length := by simp only [List.length_drop, Config.blockSize]; omega
    rw [mixBlocks, hslice, bind_ok, hwords, bind_ok, ih _ hrest, Nat.add_comm n 1, mixFold_add, mixFold_one]

end Sys2Proof.Machine

end

section
/-! PROOFS. What an APPEND does to a state that holds `bytes` (spec/40_streaming_commands.md R81 to R85), said once for
both its cases. -/

namespace Sys2Proof.Machine

/-- How many blocks an APPEND mixes when `len` bytes are there, the buffered ones and the payload (R81, R83). -/
def blocksMixed (len : Nat) : Nat := if len < 192 then 0 else len / 96

theorem blocksMixed_of_lt {len : Nat} (h : len < 192) : blocksMixed len = 0 := if_pos h

theorem blocksMixed_of_le {len : Nat} (h : 192 ≤ len) : blocksMixed len = len / 96 := if_neg (Nat.not_lt.2 h)

theorem blocksMixed_mul_le (len : Nat) : 96 * blocksMixed len ≤ len := by
  obtain h | h := Nat.lt_or_ge len 192
  · simp [blocksMixed_of_lt h]
  · rw [blocksMixed_of_le h]; omega

/-- The state `t` is `s` with `payload` absorbed behind the `bytes` it holds. -/
structure State.Absorbed (s : State) (bytes payload : List Byte) (t : State) : Prop where
  state_eq : t.state = mixFold (blocksMixed (bytes.length + payload.length)) (bytes ++ payload) s.state
  holds : t.Holds ((bytes ++ payload).drop (96 * blocksMixed (bytes.length + payload.length)))
  bufWf : s.buf.wf = true → t.buf.wf = true

theorem State.Absorbed.bufferedLength_eq {s t : State} {bytes payload : List Byte} (h : s.Absorbed bytes payload t) :
    t.bufferedLength.toNat =
      bytes.length + payload.length - 96 * blocksMixed (bytes.length + payload.length) := by
  rw [h.holds.bufferedLength_eq, List.length_drop, List.length_append]

theorem absorbed_of_appendBuffered {s : State} {bytes : List Byte} (h : s.Holds bytes) {payload : List Byte}
    (hlt : bytes.length + payload.length < 192) : ∃ t, appendBuffered payload s = .ok t ∧ s.Absorbed bytes payload t := by
  obtain ⟨buf, hw, ht⟩ := appendBuffered_ok (payload := payload) (s := s) (by rwa [h.bufferedLength_eq])
  rw [h.bufferedLength_eq] at hw ht
  refine ⟨_, ht, ?_, ?_, writeBufBytes_wf hw⟩
  · rw [blocksMixed_of_lt hlt]; rfl
  · rw [blocksMixed_of_lt hlt]; exact h.append hw hlt

theorem absorbed_of_appendDispatch {s : State} {bytes : List Byte} (h : s.Holds bytes) {payload : List Byte}
    (hge : 192 ≤ bytes.length + payload.length) :
    ∃ t, appendDispatch payload s = .ok t ∧ s.Absorbed bytes payload t := by
  set S := bytes ++ payload with hS
  have hlen : bytes.length + payload.length = S.length := by simp [hS]
  rw [hlen] at hge
  have hslice : sliceAt S (96 * (S.length / 96)) (S.length % 96) = .ok (S.drop (96 * (S.length / 96))) := by
    rw [sliceAt_ok (by omega), List.take_of_length_le (by simp; omega)]
  have hleft : (S.drop (96 * (S.length / 96))).length = S.length % 96 := by simp; omega
  obtain ⟨buf, hw⟩ := writeBufBytes_ok s.buf 0 (S.drop (96 * (S.length / 96)))
    (by simp only [Config.bufSize]; omega)
  have hmix : mixBlocks (S.length / 96) S s.state = .ok (mixFold (S.length / 96) S s.state) :=
    mixBlocks_eq_mixFold s.state (by omega)
  refine ⟨((s.setState (mixFold (S.length / 96) S s.state)).setBuf buf).setBufferedLength
    (BitVec.ofNat 8 (S.length % 96)), ?_, ?_, ?_, writeBufBytes_wf hw⟩
  · simp only [appendDispatch, readBufBytes_all h, bind_ok, ← hS, Config.blockSize, hmix, hslice, hw, pure_eq_ok]
  · rw [hlen, blocksMixed_of_le hge]; rfl
  · rw [hlen, blocksMixed_of_le hge, ← hleft]
    exact holds_of_write_zero (s := s.setState _) hw (by omega)

/-- Both cases of an APPEND complete and absorb the payload (R81). -/
theorem absorb_of_holds {s : State} {bytes : List Byte} (h : s.Holds bytes) (payload : List Byte) :
    ∃ t, absorb payload s = .ok t ∧ s.Absorbed bytes payload t := by
  rw [absorb, h.bufferedLength_eq]
  split
  · next hlt => exact absorbed_of_appendBuffered h hlt
  · next hge => exact absorbed_of_appendDispatch h (Nat.le_of_not_lt hge)

/-- An APPEND completes, absorbs and counts the payload, and answers OK. -/
theorem execAppend_of_holds {s : State} {bytes : List Byte} (h : s.Holds bytes) (payload : List Byte) :
    ∃ t, execAppend payload s = .next t ∧ s.Absorbed bytes payload t ∧
      t.totalLength = addToTotal s.totalLength payload.length ∧ t.output = s.output ++ [okResponse] := by
  obtain ⟨u, hu, hstate, hholds, hwf⟩ := absorb_of_holds h payload
  obtain ⟨-, -, hout⟩ := absorb_frame hu
  refine ⟨_, execAppend_eq_next.2 ⟨u, hu, rfl⟩, ⟨hstate, hholds.congr rfl rfl, hwf⟩, rfl, ?_⟩
  simp [hout]

/-- In every state, an APPEND that completes adds its length to TOTAL_LENGTH (R85). -/
theorem execAppend_totalLength {payload : List Byte} {s t : State} (h : execAppend payload s = .next t) :
    t.totalLength = addToTotal s.totalLength payload.length := by
  obtain ⟨u, -, rfl⟩ := execAppend_eq_next.1 h
  rfl

end Sys2Proof.Machine

end

section
/-! PROOFS. The state after reset, and what every step keeps (spec/10_state.md R26, R27, R31, R33). -/

namespace Sys2Proof.Machine

/-- A step performs the command decoded at the head of the input (R29). -/
theorem step_of_decode_instr {s : State} {i : Instr} {rest : List Byte} (h : decode s.input = .instr i rest) :
    step s = exec i (s.setInput rest) := by
  rw [step, h]

/-- Architectural state changes only in a step that performs a command. -/
theorem step_sameArch_or_exec {s t : State} (h : step s = .next t) :
    s.SameArch t ∨ ∃ i rest, decode s.input = .instr i rest ∧ exec i (s.setInput rest) = .next t := by
  obtain hexec | ⟨rest, -, rfl⟩ | ⟨rest, -, rfl⟩ | ⟨-, rfl⟩ := step_cases h
  · exact .inr hexec
  · exact .inl (s.setInput_emit_sameArch rest _)
  · exact .inl (s.setInput_emit_sameArch rest _)
  · exact .inl (.refl t)

/-! ### The invariants of R26 -/

theorem reset_state_eq_seeded : State.reset.state = seeded 0 0 := rfl

/-- The invariants speak of the architectural state only. -/
theorem State.Inv.of_sameArch {s t : State} (h : s.Inv) (hst : s.SameArch t) : t.Inv := by
  obtain ⟨hstate, hbuf, htotal, hbuffered⟩ := hst
  obtain ⟨hwf, hvalid, hbound, htotalBound, hall, hseeded, hblocks, htwo⟩ := h
  constructor <;> simp only [hstate, hbuf, htotal, hbuffered] <;> assumption

/-- A seeded state with nothing counted meets the invariants, as after INIT and after reset (R31, R33, R80). -/
theorem inv_of_seeded_empty {s : State} {seed1 seed2 : Word} (hwf : s.buf.wf = true)
    (hstate : s.state = seeded seed1 seed2) (htotal : s.totalLength = 0) (hbuffered : s.bufferedLength = 0) : s.Inv where
  bufWf := hwf
  bufValid a ha := absurd ha (by simp [hbuffered])
  bufferedBound := by simp [hbuffered]
  totalBound := by simp [hbuffered]
  shortBuffered _ := by simp [htotal, hbuffered]
  shortSeeded _ := by rw [hstate]; rfl
  longBlocks hlong := absurd hlong (by simp [htotal])
  longDispatched hlong := absurd hlong (by simp [htotal])

section absorbed

variable {s t : State} {bytes payload : List Byte} (h : s.Inv) (hs : s.Holds bytes) (ht : s.Absorbed bytes payload t)
  (htotal : t.totalLength = addToTotal s.totalLength payload.length)

include h hs htotal in
/-- While SHORT_MODE lasts everything counted is there to be buffered, too little for a block to be mixed. -/
theorem absorbed_shortMode (hlt : t.totalLength.toNat < 192) :
    s.totalLength.toNat < 192 ∧ bytes.length + payload.length = t.totalLength.toNat ∧
      blocksMixed (bytes.length + payload.length) = 0 := by
  rw [htotal, addToTotal_toNat] at hlt ⊢
  simp only [Config.totalMax] at hlt ⊢
  have hslt : s.totalLength.toNat < 192 := by omega
  have hall := h.shortBuffered hslt
  rw [hs.bufferedLength_eq] at hall
  exact ⟨hslt, by omega, blocksMixed_of_lt (by omega)⟩

include h hs ht htotal in
/-- In LONG_MODE, not saturated, whole blocks have left the buffer: at least two when LONG_MODE begins. -/
theorem absorbed_longMode (hge : 192 ≤ t.totalLength.toNat) (hsat : t.totalLength.toNat < 2 ^ 64 - 1) :
    (t.totalLength.toNat - t.bufferedLength.toNat) % 96 = 0 ∧
      192 ≤ t.totalLength.toNat - t.bufferedLength.toNat := by
  rw [htotal, addToTotal_toNat] at hge hsat ⊢
  rw [ht.bufferedLength_eq]
  simp only [Config.totalMax] at hge hsat ⊢
  have hmul := blocksMixed_mul_le (bytes.length + payload.length)
  have hsbl := hs.bufferedLength_eq
  obtain hslt | hsge := Nat.lt_or_ge s.totalLength.toNat 192
  · have hall := h.shortBuffered hslt
    have hblocks := blocksMixed_of_le (show 192 ≤ bytes.length + payload.length by omega)
    omega
  · have hssat : s.totalLength.toNat < 2 ^ 64 - 1 := by omega
    have hblocks : (s.totalLength.toNat - s.bufferedLength.toNat) % 96 = 0 := h.longBlocks hsge hssat
    have htwo : 192 ≤ s.totalLength.toNat - s.bufferedLength.toNat := h.longDispatched hsge hssat
    omega

include h hs ht htotal in
/-- Absorbing and counting a payload keeps the invariants. -/
theorem State.Inv.of_absorbed : t.Inv where
  bufWf := ht.bufWf h.bufWf
  bufValid a ha := by
    rw [ht.holds.bufferedLength_eq] at ha
    rw [ht.holds.read ha, List.getElem?_eq_getElem ha, Option.isSome_some]
  bufferedBound := Nat.le_of_lt_succ (ht.holds.bufferedLength_eq ▸ ht.holds.length_lt)
  totalBound := by
    have hbound := ht.holds.length_lt
    have htotalBound := h.totalBound
    rw [hs.bufferedLength_eq] at htotalBound
    rw [← ht.holds.bufferedLength_eq, ht.bufferedLength_eq] at hbound
    rw [ht.bufferedLength_eq, htotal, addToTotal_toNat]
    simp only [Config.totalMax]
    omega
  shortBuffered hlt := by
    obtain ⟨-, hall, hnone⟩ := absorbed_shortMode h hs htotal hlt
    rw [ht.bufferedLength_eq, hnone, hall, Nat.mul_zero, Nat.sub_zero]
  shortSeeded hlt := by
    obtain ⟨hslt, -, hnone⟩ := absorbed_shortMode h hs htotal hlt
    rw [ht.state_eq, hnone, mixFold_zero]
    exact h.shortSeeded hslt
  longBlocks hge hsat := (absorbed_longMode h hs ht htotal hge hsat).1
  longDispatched hge hsat := (absorbed_longMode h hs ht htotal hge hsat).2

end absorbed

/-- Every command keeps the invariants. -/
theorem exec_keeps_inv {i : Instr} {s t : State} (hs : s.Inv) (h : exec i s = .next t) : t.Inv := by
  obtain hsame | ⟨seed1, seed2, rfl⟩ | ⟨payload, rfl⟩ := exec_sameArch_or_writer h
  · exact hs.of_sameArch hsame
  · obtain rfl : _ = t := Host.Outcome.next.inj h
    exact inv_of_seeded_empty hs.bufWf rfl rfl rfl
  · obtain ⟨bytes, hbytes⟩ := hs.exists_holds
    obtain ⟨u, hu, habs, htotal, -⟩ := execAppend_of_holds hbytes payload
    obtain rfl : u = t := Host.Outcome.next.inj (hu.symm.trans h)
    exact hs.of_absorbed hbytes habs htotal

/-! ### LONG_MODE (R27) -/

theorem longMode_iff {s : State} : longMode s = true ↔ 192 ≤ s.totalLength.toNat := decide_eq_true_iff

/-- Every command but INIT leaves LONG_MODE as it is: TOTAL_LENGTH never falls (R25). -/
theorem exec_keeps_longMode {i : Instr} {s t : State} (h : exec i s = .next t) (hlong : longMode s = true) :
    longMode t = true ∨ ∃ seed1 seed2, i = .init seed1 seed2 := by
  rw [longMode_iff] at hlong ⊢
  obtain ⟨-, -, htotal, -⟩ | hinit | ⟨payload, rfl⟩ := exec_sameArch_or_writer h
  · exact .inl (htotal ▸ hlong)
  · exact .inr hinit
  · left
    rw [execAppend_totalLength h, addToTotal_toNat]
    exact le_min (by omega) (by decide)

end Sys2Proof.Machine

open Sys2Proof Sys2Proof.Machine

/-- Settles O1: each value is the one written in `State.reset`. -/
theorem resetValues : Obligations.ResetValues := ⟨by decide, rfl, rfl, by decide⟩

/-- Settles O16: the reset state is seeded with 0, 0 and has nothing counted. -/
theorem resetMeetsInvariants : Obligations.ResetMeetsInvariants :=
  inv_of_seeded_empty reset_buf_wf reset_state_eq_seeded rfl rfl

/-- Settles O45. -/
theorem stepPerformsDecodedCommand : Obligations.StepPerformsDecodedCommand :=
  fun _ _ _ h => step_of_decode_instr h

/-- Settles O17, by cases on whether the step performs a command. -/
theorem stepKeepsInvariants : Obligations.StepKeepsInvariants := by
  intro s t hs h
  obtain hsame | ⟨i, rest, -, hexec⟩ := step_sameArch_or_exec h
  · exact hs.of_sameArch hsame
  · exact exec_keeps_inv (hs.of_sameArch (s.setInput_sameArch rest)) hexec

/-- Settles O18, by cases on whether the step performs a command. -/
theorem longModeLastsUntilInit : Obligations.LongModeLastsUntilInit := by
  intro s t h hlong
  obtain ⟨-, -, htotal, -⟩ | ⟨i, rest, hd, hexec⟩ := step_sameArch_or_exec h
  · left
    rw [longMode_iff] at hlong ⊢
    exact htotal ▸ hlong
  · obtain hkept | ⟨seed1, seed2, rfl⟩ := exec_keeps_longMode hexec hlong
    · exact .inl hkept
    · exact .inr ⟨seed1, seed2, rest, hd⟩

end

section
/-! PROOFS. The bytes of BUF outside the valid region decide nothing (spec/10_state.md R23, R96). -/

namespace Sys2Proof.Machine

/-- Finalize looks at STATE, TOTAL_LENGTH and the valid region only. -/
theorem finalize_eq_of_holds {s u : State} {bytes : List Byte} (hs : s.Holds bytes) (hu : u.Holds bytes)
    (hstate : u.state = s.state) (htotal : u.totalLength = s.totalLength) : finalize u = finalize s := by
  have hshort : finalizeShort u = finalizeShort s := by
    rw [finalizeShort_of_holds hs, finalizeShort_of_holds hu, hstate]
  have hread {a n : Nat} (han : a + n ≤ bytes.length) : readBufBytes u a n = readBufBytes s a n := by
    rw [readBufBytes_of_holds hs han, readBufBytes_of_holds hu han]
  have hlong : finalizeLong u = finalizeLong s := by
    simp only [finalizeLong, hs.bufferedLength_eq, hu.bufferedLength_eq, hstate]
    split
    · next hfull => rw [hread (by omega), hread (by omega)]
    · rw [hread (by omega)]
  have hmode : shortMode u = shortMode s := by rw [shortMode, shortMode, htotal]
  rw [finalize, finalize, hmode, hshort, hlong]

end Sys2Proof.Machine

open Sys2Proof Sys2Proof.Machine

/-- Settles O20, by cases on the command: INIT reads no byte, APPEND and the digests read the valid region only. -/
theorem staleBytesCannotBeObserved : Obligations.StaleBytesCannotBeObserved := by
  intro s u bytes hs hu hstate htotal i t h
  have hfinal := finalize_eq_of_holds hs hu hstate htotal
  cases i with
  | init seed1 seed2 =>
    obtain rfl : _ = t := Host.Outcome.next.inj h
    exact ⟨_, okResponse, [], rfl, rfl, rfl, rfl, rfl, holds_nil rfl, holds_nil rfl⟩
  | append payload =>
    obtain ⟨t', ht, habs, htl, hout⟩ := execAppend_of_holds hs payload
    obtain rfl : t' = t := Host.Outcome.next.inj (ht.symm.trans h)
    obtain ⟨v, hv, habs', htl', hout'⟩ := execAppend_of_holds hu payload
    exact ⟨v, okResponse, _, hv, hout, hout', by rw [habs.state_eq, habs'.state_eq, hstate],
      by rw [htl, htl', htotal], habs.holds, habs'.holds⟩
  | digest64 =>
    obtain ⟨w, hw, rfl⟩ := execDigest64_eq_next.1 h
    exact ⟨_, _, bytes, execDigest64_eq_next.2 ⟨w, hfinal.trans hw, rfl⟩, rfl, rfl, hstate, htotal,
      (s.emit_sameArch _).holds hs, (u.emit_sameArch _).holds hu⟩
  | digest128 =>
    obtain ⟨w, hw, rfl⟩ := execDigest128_eq_next.1 h
    exact ⟨_, _, bytes, execDigest128_eq_next.2 ⟨w, hfinal.trans hw, rfl⟩, rfl, rfl, hstate, htotal,
      (s.emit_sameArch _).holds hs, (u.emit_sameArch _).holds hu⟩

end

section
/-! PROOFS. Where the bytes of a stream are after any APPENDs (spec/10_state.md R26, spec/40_streaming_commands.md
R98): the oldest blocks in STATE, the rest in BUF. -/

namespace Sys2Proof.Machine

/-- Of the stream `X` the first `n` blocks are mixed, from `h0` on, the rest is buffered, and all of it is counted. -/
structure State.Streamed (h0 : Words12) (X : List Byte) (n : Nat) (t : State) : Prop where
  blocks_le : 96 * n ≤ X.length
  state_eq : t.state = mixFold n X h0
  holds : t.Holds (X.drop (96 * n))
  total_eq : t.totalLength.toNat = min X.length (2 ^ 64 - 1)
  short : X.length < 192 → n = 0

/-- A state with nothing counted has streamed nothing. -/
theorem streamed_nil {t : State} (htotal : t.totalLength = 0) (hbuffered : t.bufferedLength = 0) :
    State.Streamed t.state [] 0 t :=
  ⟨Nat.le_refl 0, rfl, holds_nil hbuffered, by simp [htotal], fun _ => rfl⟩

/-- An APPEND continues the stream. -/
theorem State.Streamed.append {h0 : Words12} {X : List Byte} {n : Nat} {s : State} (h : s.Streamed h0 X n)
    (payload : List Byte) : ∃ m t, exec (.append payload) s = .next t ∧ t.Streamed h0 (X ++ payload) m := by
  obtain ⟨t, ht, habs, htl, -⟩ := execAppend_of_holds h.holds payload
  have hle := h.blocks_le
  set k := blocksMixed ((X.drop (96 * n)).length + payload.length) with hk
  have hkle : 96 * k ≤ X.length - 96 * n + payload.length := by simpa [hk] using blocksMixed_mul_le _
  have hrest : X.drop (96 * n) ++ payload = (X ++ payload).drop (96 * n) :=
    (List.drop_append_of_le_length hle).symm
  refine ⟨n + k, t, ht, ?_, ?_, ?_, ?_, ?_⟩
  · rw [List.length_append]; omega
  · rw [habs.state_eq, h.state_eq, hrest, mixFold_add, mixFold_append_right payload h0 hle]
  · have hholds := habs.holds
    rwa [hrest, List.drop_drop, ← Nat.mul_add] at hholds
  · rw [htl, addToTotal_toNat, h.total_eq, List.length_append]
    simp only [Config.totalMax]; omega
  · intro hlt
    rw [List.length_append] at hlt
    rw [h.short (by omega), hk, blocksMixed_of_lt (by rw [List.length_drop]; omega)]

/-- APPENDs of any pieces complete and continue the stream by all of them. -/
theorem State.Streamed.run {h0 : Words12} {X : List Byte} {n : Nat} {s : State} (h : s.Streamed h0 X n)
    (pieces : List (List Byte)) :
    ∃ m t, runCommands (pieces.map Instr.append) s = .next t ∧ t.Streamed h0 (X ++ pieces.flatten) m := by
  induction pieces generalizing X n s with
  | nil => exact ⟨n, s, rfl, by simpa using h⟩
  | cons piece pieces ih =>
    obtain ⟨k, u, hu, hstream⟩ := h.append piece
    obtain ⟨m, t, ht, hend⟩ := ih hstream
    refine ⟨m, t, ?_, by simpa using hend⟩
    rw [List.map_cons, runCommands, hu]
    exact ht

/-- INIT begins a stream from the seeded pattern, in every state (R80). -/
theorem runCommands_init_streamed (seed1 seed2 : Word) (pieces : List (List Byte)) (s : State) :
    ∃ n t, runCommands (.init seed1 seed2 :: pieces.map Instr.append) s = .next t ∧
      t.Streamed (seeded seed1 seed2) pieces.flatten n :=
  State.Streamed.run (streamed_nil rfl rfl) pieces

end Sys2Proof.Machine

open Sys2Proof Sys2Proof.Machine

/-- Settles O24, by induction on the pieces (`State.Streamed.run`). -/
theorem stateAbsorbsWholeBlocksOfStream : Obligations.StateAbsorbsWholeBlocksOfStream := by
  intro s seed1 seed2 pieces hlen
  obtain ⟨n, t, ht, hle, hstate, hholds, htotal, hshort⟩ := runCommands_init_streamed seed1 seed2 pieces s
  have hbuffered : t.bufferedLength.toNat = pieces.flatten.length - 96 * n := by
    rw [hholds.bufferedLength_eq, List.length_drop]
  have hmixed : pieces.flatten.length - t.bufferedLength.toNat = 96 * n := by omega
  refine ⟨t, ht, ?_⟩
  simp only [hmixed]
  refine ⟨by omega, by omega, hholds, by omega, fun hlt => by simp [hshort hlt], ?_⟩
  rw [Nat.mul_div_cancel_left n (by decide)]
  exact hstate

end

section
/-! PROOFS. The engines read their byte sequences only below the length (spec/20_memory.md R51, R133), so each has a
value: SHORT phase by phase, and the padded last block. MIX over blocks is `mixBlocks_eq_mixFold`. -/

namespace Sys2Proof.Machine

/-! ### SHORT -/

/-- Sixteen bytes that are there are absorbed as two words (R127). -/
theorem shortAbsorb16_ok {msg : List Byte} {p : Nat} (h : Words4) (hp : p + 16 ≤ msg.length) :
    shortAbsorb16 msg p h = .ok (shortMix
      (addTo (addTo h 2 (le ((msg.drop p).take 8))) 3 (le ((msg.drop (p + 8)).take 8)))) := by
  have hlow : p + 8 ≤ msg.length := by omega
  rw [shortAbsorb16, le64At_ok hlow, bind_ok, le64At_ok hp, bind_ok, pure_eq_ok]

/-- Chunks that are there complete. -/
theorem shortChunks_total {msg : List Byte} {n p : Nat} (h : Words4) (hp : p + 32 * n ≤ msg.length) :
    ∃ g, shortChunks msg n p h = .ok g := by
  induction n generalizing p h with
  | zero => exact ⟨h, rfl⟩
  | succ n ih =>
    have hhalf : p + 16 ≤ msg.length := by omega
    have hthird : p + 16 + 8 ≤ msg.length := by omega
    have hlast : p + 24 + 8 ≤ msg.length := by omega
    have hrest : p + 32 + 32 * n ≤ msg.length := by omega
    rw [shortChunks, shortAbsorb16_ok h hhalf, bind_ok, le64At_ok hthird, bind_ok, le64At_ok hlast, bind_ok]
    exact ih _ hrest

/-- The tail table has a row for every tail of at most 15 bytes, and the row for `n` bytes reads offsets below `n` only
(R129, R131). -/
theorem shortTail_total {t : List Byte} (h : Words4) (ht : t.length ≤ 15) : ∃ g, shortTail t h = .ok g := by
  obtain ⟨n, hn⟩ : ∃ n, t.length = n := ⟨_, rfl⟩
  have hle : n ≤ 15 := hn ▸ ht
  interval_cases n <;>
    simp (disch := omega) only [shortTail, hn, tailRow1, tailRow2, tailRow3, tailRow4, tailRow5, tailRow6, tailRow7,
      tailRow8, tailRow9, tailRow10, tailRow11, tailRow12, tailRow13, tailRow14, tailRow15, shiftedByteAt_ok, le32At_ok,
      le64At_ok, bind_ok, pure_eq_ok, Except.ok.injEq, exists_eq']

/-- The tail fold over at most 15 bytes that are there completes. -/
theorem shortTail_sliceAt_total {msg : List Byte} {p r : Nat} (h : Words4) (hp : p + r ≤ msg.length) (hr : r ≤ 15) :
    ∃ g, (sliceAt msg p r >>= fun t => shortTail t h) = .ok g := by
  rw [sliceAt_ok hp, bind_ok]
  exact shortTail_total h (by rw [List.length_take]; omega)

theorem shortFold_total (msg : List Byte) (seed1 seed2 : Word) : ∃ g, shortFold msg seed1 seed2 = .ok g := by
  have hsplit : 32 * (msg.length / 32) + msg.length % 32 = msg.length := Nat.div_add_mod _ _
  obtain ⟨chunked, hchunks⟩ := shortChunks_total (p := 0) (shortSeed seed1 seed2)
    (show 0 + 32 * (msg.length / 32) ≤ msg.length by omega)
  simp only [shortFold, Config.shortChunk, hchunks, bind_ok]
  split
  · next hhalf =>
    rw [shortAbsorb16_ok chunked (by omega), bind_ok]
    exact shortTail_sliceAt_total _ (by omega) (by omega)
  · next hhalf => exact shortTail_sliceAt_total _ (by omega) (by omega)

/-- SHORT has a value for every message (R51, R133). -/
theorem short_total (msg : List Byte) (seed1 seed2 : Word) : ∃ w, short msg seed1 seed2 = .ok w := by
  obtain ⟨g, hfold⟩ := shortFold_total msg seed1 seed2
  rw [short, hfold, bind_ok]
  exact ⟨_, rfl⟩

/-! ### The padded last block -/

/-- A tail of at most 95 bytes is padded to one block, and END over it answers words 0 and 1 (R91, R92). -/
theorem finishLong_ok {tail : List Byte} (h : Words12) (ht : tail.length ≤ 95) :
    finishLong tail h =
      .ok ((endNet (wordsOf (lastBlock tail)) h)[0], (endNet (wordsOf (lastBlock tail)) h)[1]) := by
  rw [finishLong, blockWords_ok (lastBlock_length ht), bind_ok, pure_eq_ok]

end Sys2Proof.Machine

open Sys2Proof Sys2Proof.Machine

/-- Settles O32: each engine by the equation or the totality lemma of its own. -/
theorem enginesReadWithinTheirSequences : Obligations.EnginesReadWithinTheirSequences :=
  ⟨short_total, fun _ _ h hblocks => ⟨_, mixBlocks_eq_mixFold h hblocks⟩, fun _ h ht => ⟨_, finishLong_ok h ht⟩⟩

end

section
/-! PROOFS. Headers (spec/30_encoding.md R61, R67, R70): the two fields say a header whole, and which headers the
decoder reads as which row. -/

namespace Sys2Proof

/-! ### The two fields -/

theorem Header.toNat_opc (h : Header) : h.opc.toNat = h.toNat % 256 := by
  simp [Header.opc]

theorem Header.toNat_arg (h : Header) : h.arg.toNat = h.toNat / 256 := by
  have := h.isLt
  rw [Header.arg, BitVec.extractLsb'_toNat, Nat.shiftRight_eq_div_pow]
  omega

/-- A header is its OPC and its ARG (R61). -/
theorem Header.eq_iff {h g : Header} : h = g ↔ h.opc = g.opc ∧ h.arg = g.arg := by
  rw [← BitVec.toNat_inj, ← BitVec.toNat_inj, ← BitVec.toNat_inj, toNat_opc, toNat_opc, toNat_arg, toNat_arg]
  omega

/-- The byte that stands first on the byte carrier is OPC (R76). -/
theorem ofNat_toNat_eq_opc (h : Header) : BitVec.ofNat 8 h.toNat = h.opc := by
  apply BitVec.eq_of_toNat_eq
  rw [BitVec.toNat_ofNat, Header.toNat_opc]

/-- The mask of APPEND leaves OPC. -/
theorem Header.and_opcMask_eq_iff (h : Header) : h &&& 0x000000ff = 0x00000002 ↔ h.opc = 0x02 := by
  have hmask : (h &&& 0x000000ff).toNat = h.toNat % 256 := by
    rw [BitVec.toNat_and]
    exact Nat.and_two_pow_sub_one_eq_mod h.toNat 8
  rw [← BitVec.toNat_inj, ← BitVec.toNat_inj, hmask, Header.toNat_opc]
  rfl

/-- The mask of the other three rows leaves the header whole. -/
theorem Header.and_fullMask (h : Header) : h &&& 0xffffffff = h := BitVec.and_allOnes

/-! ### The rows of R67 -/

theorem decodeHeader_eq_init_iff {h : Header} : decodeHeader h = .init ↔ h = 0x00000001 := by
  rw [Header.eq_iff, decodeHeader]
  change _ ↔ h.opc = 0x01 ∧ h.arg = 0
  split_ifs <;> simp_all

theorem decodeHeader_eq_append_iff {h : Header} : decodeHeader h = .append ↔ h.opc = 0x02 := by
  rw [decodeHeader]
  split_ifs <;> simp_all

theorem decodeHeader_eq_digest64_iff {h : Header} : decodeHeader h = .digest64 ↔ h = 0x00000003 := by
  rw [Header.eq_iff, decodeHeader]
  change _ ↔ h.opc = 0x03 ∧ h.arg = 0
  split_ifs <;> simp_all

theorem decodeHeader_eq_digest128_iff {h : Header} : decodeHeader h = .digest128 ↔ h = 0x00000004 := by
  rw [Header.eq_iff, decodeHeader]
  change _ ↔ h.opc = 0x04 ∧ h.arg = 0
  split_ifs <;> simp_all

/-! ### The payload length of each (R70) -/

theorem payloadLength_of_append {h : Header} (hk : decodeHeader h = .append) : payloadLength h = h.arg.toNat :=
  if_pos (decodeHeader_eq_append_iff.1 hk)

theorem payloadLength_of_init {h : Header} (hk : decodeHeader h = .init) : payloadLength h = 16 := by
  rw [decodeHeader_eq_init_iff.1 hk]
  rfl

theorem payloadLength_eq_zero {h : Header} (hinit : decodeHeader h ≠ .init) (happend : decodeHeader h ≠ .append) :
    payloadLength h = 0 := by
  rw [Ne, decodeHeader_eq_init_iff] at hinit
  rw [Ne, decodeHeader_eq_append_iff] at happend
  rw [payloadLength, if_neg happend, if_neg hinit]

end Sys2Proof

open Sys2Proof Sys2Proof.Machine

/-- Settles O37: the masks leave OPC or the whole header, so a header selects just the row it is read as. -/
theorem headersSelectRowsOfOpcodeMap : Obligations.HeadersSelectRowsOfOpcodeMap := by
  intro h
  have hinit : decodeHeader h = .init ↔ h &&& 0xffffffff = 0x00000001 := by
    rw [h.and_fullMask, decodeHeader_eq_init_iff]
  have happend : decodeHeader h = .append ↔ h &&& 0x000000ff = 0x00000002 := by
    rw [h.and_opcMask_eq_iff, decodeHeader_eq_append_iff]
  have hdigest64 : decodeHeader h = .digest64 ↔ h &&& 0xffffffff = 0x00000003 := by
    rw [h.and_fullMask, decodeHeader_eq_digest64_iff]
  have hdigest128 : decodeHeader h = .digest128 ↔ h &&& 0xffffffff = 0x00000004 := by
    rw [h.and_fullMask, decodeHeader_eq_digest128_iff]
  refine ⟨hinit, happend, hdigest64, hdigest128, payloadLength_of_init, fun hk => ?_, ?_, ?_⟩
  · rw [payloadLength_of_append hk, Header.toNat_arg, BitVec.toNat_ushiftRight, Nat.shiftRight_eq_div_pow]
  · rintro (hk | hk) <;> exact payloadLength_eq_zero (by simp [hk]) (by simp [hk])
  · simp only [opcodeRows, List.filter_cons, List.filter_nil, OpcodeRow.selects, ← hinit, ← happend, ← hdigest64,
      ← hdigest128]
    cases decodeHeader h <;> decide

end

section
/-! PROOFS. Little-endian bytes in both directions (spec/00_scope.md R13, spec/30_encoding.md R66, R76). -/

namespace Sys2Proof

/-- Writing `n` bytes of the number of at most `n` bytes gives them back, with zeros above. -/
theorem leBytes_leNat {n : Nat} {bs : List Byte} (h : bs.length ≤ n) :
    leBytes n (leNat bs) = bs ++ List.replicate (n - bs.length) 0 := by
  induction n generalizing bs with
  | zero => rw [List.length_eq_zero_iff.1 (Nat.le_zero.1 h)]; rfl
  | succ n ih =>
    cases bs with
    | nil =>
      have hzeros := ih (bs := []) (Nat.zero_le n)
      simpa [leBytes, leNat, List.replicate_succ] using hzeros
    | cons b bs =>
      have hb := b.isLt
      have hlow : BitVec.ofNat 8 (leNat (b :: bs)) = b := by
        apply BitVec.eq_of_toNat_eq
        simp only [leNat, BitVec.toNat_ofNat]
        omega
      have hhigh : leNat (b :: bs) / 256 = leNat bs := by simp only [leNat]; omega
      have hbs : bs.length ≤ n := by simpa using h
      simp [leBytes, hlow, hhigh, ih hbs]

/-- A word is read back from its eight bytes (R66). -/
theorem le_leBytes (w : Word) : le (leBytes 8 w.toNat) = w := by
  rw [le, leNat_leBytes_of_lt (by have := w.isLt; omega), BitVec.ofNat_toNat, BitVec.setWidth_eq]

/-- Eight bytes are read back from their word (R66). -/
theorem leBytes_le {bs : List Byte} (h : bs.length = 8) : leBytes 8 (le bs).toNat = bs := by
  rw [toNat_le h.le, leBytes_leNat h.le, h]
  simp

/-- A header or a payload word that holds at most four bytes is written as them and zeros (R76). -/
theorem leBytes_ofNat_leNat {bs : List Byte} (h : bs.length ≤ 4) :
    leBytes 4 (BitVec.ofNat 32 (leNat bs)).toNat = bs ++ List.replicate (4 - bs.length) 0 := by
  have hlt : leNat bs < 2 ^ 32 := calc
    leNat bs < 256 ^ bs.length := leNat_lt bs
    _ ≤ 256 ^ 4 := Nat.pow_le_pow_right (by decide) h
    _ = 2 ^ 32 := by decide
  rw [BitVec.toNat_ofNat, Nat.mod_eq_of_lt hlt, leBytes_leNat h]

/-- Four bytes are read back from their header word (R76). -/
theorem leBytes_headerOfBytes (b0 b1 b2 b3 : Byte) :
    leBytes 4 (headerOfBytes b0 b1 b2 b3).toNat = [b0, b1, b2, b3] := by
  rw [headerOfBytes, leBytes_ofNat_leNat (by simp)]
  simp

/-- The seeds are read back from the payload of INIT. -/
theorem seedsOf_leBytes (seed1 seed2 : Word) :
    seedsOf (leBytes 8 seed1.toNat ++ leBytes 8 seed2.toNat) = (seed1, seed2) := by
  simp [seedsOf, leBytes_length, List.take_of_length_le, le_leBytes]

/-- The payload of INIT is read back from its seeds. -/
theorem leBytes_seedsOf {payload : List Byte} (h : payload.length = 16) :
    leBytes 8 (seedsOf payload).1.toNat ++ leBytes 8 (seedsOf payload).2.toNat = payload := by
  have hlow : (payload.take 8).length = 8 := by simp; omega
  have hhigh : ((payload.drop 8).take 8).length = 8 := by simp; omega
  have hend : (payload.drop 8).take 8 = payload.drop 8 := List.take_of_length_le (by simp; omega)
  rw [seedsOf, leBytes_le hlow, leBytes_le hhigh, hend, List.take_append_drop]

end Sys2Proof

end

section
/-! PROOFS. The decoder on a header and what follows it, said once for both carriers (spec/30_encoding.md R67 to R70,
R76). -/

namespace Sys2Proof

/-- What a packet decodes to whose header is of kind `k` and whose payload has arrived whole. -/
def HeaderKind.decoded {α : Type} (k : HeaderKind) (payload : List Byte) (rest : List α) : Decoded α :=
  match k with
  | .init => .instr (.init (seedsOf payload).1 (seedsOf payload).2) rest
  | .append => .instr (.append payload) rest
  | .digest64 => .instr .digest64 rest
  | .digest128 => .instr .digest128 rest
  | .illegalOpcode => .illegalOpcode rest
  | .illegalField => .illegalField rest

/-- The decoder behind a header whose payload takes `n` units, which carry the bytes `payloadOf` gives (R70, R76). -/
def decodeBehind {α : Type} (h : Header) (n : Nat) (payloadOf : List α → List Byte) (units : List α) : Decoded α :=
  if n ≤ units.length then (decodeHeader h).decoded (payloadOf (units.take n)) (units.drop n) else .incomplete

/-- The byte carrier: as many bytes as the header calls for. -/
theorem decode_eq_decodeBehind (h : Header) (bytes : List Byte) :
    decode (leBytes 4 h.toNat ++ bytes) = decodeBehind h (payloadLength h) id bytes := by
  obtain ⟨b0, b1, b2, b3, hbytes, hheader⟩ := headerOfBytes_leBytes h
  have hzero := payloadLength_eq_zero (h := h)
  rw [hbytes]
  simp only [List.cons_append, List.nil_append, decode, hheader, decodeBehind, takeExactly]
  cases hk : decodeHeader h with
  | init | append => split_ifs <;> rfl
  | digest64 | digest128 | illegalOpcode | illegalField => simp [hk, hzero, HeaderKind.decoded]

theorem seedsOf_take_sixteen (bs : List Byte) : seedsOf (bs.take 16) = seedsOf bs := by
  simp [seedsOf, List.take_take, List.drop_take]

/-- The word carrier: as many words as carry the bytes the header calls for. -/
theorem decodeWords_eq_decodeBehind (h : Header) (ws : List (BitVec 32)) :
    decodeWords (h :: ws) =
      decodeBehind h (wordCount (payloadLength h)) (fun packed => (unpackWords packed).take (payloadLength h)) ws := by
  have hzero := payloadLength_eq_zero (h := h)
  simp only [decodeWords, decodeBehind, takeExactly]
  cases hk : decodeHeader h with
  | init =>
    rw [payloadLength_of_init hk]
    split_ifs <;> simp [HeaderKind.decoded, seedsOf_take_sixteen]
  | append => split_ifs <;> rfl
  | digest64 | digest128 | illegalOpcode | illegalField => simp [hk, hzero, HeaderKind.decoded, wordCount]

/-- A whole packet is consumed whole and no more (R70). -/
theorem decode_packet {h : Header} {payload : List Byte} (rest : List Byte) (hlen : payload.length = payloadLength h) :
    decode (leBytes 4 h.toNat ++ payload ++ rest) = (decodeHeader h).decoded payload rest := by
  rw [List.append_assoc, decode_eq_decodeBehind, decodeBehind, ← hlen]
  simp

/-- A packet whose payload has not arrived whole is none yet (R70, R151). -/
theorem decode_partial_payload {h : Header} {payload : List Byte} (hlen : payload.length < payloadLength h) :
    decode (leBytes 4 h.toNat ++ payload) = .incomplete := by
  rw [decode_eq_decodeBehind, decodeBehind, if_neg (Nat.not_le.2 hlen)]

/-- A header that has not arrived whole is none yet (log entry 2). -/
theorem decode_partial_header {bytes : List Byte} (h : bytes.length < 4) : decode bytes = .incomplete := by
  match bytes with
  | [] | [_] | [_, _] | [_, _, _] => rfl
  | _ :: _ :: _ :: _ :: _ => simp at h; omega

/-- Four bytes or more begin with a header. -/
theorem exists_header_of_le_length {bytes : List Byte} (h : 4 ≤ bytes.length) :
    ∃ (g : Header) (rest : List Byte), bytes = leBytes 4 g.toNat ++ rest := by
  match bytes with
  | b0 :: b1 :: b2 :: b3 :: rest => exact ⟨headerOfBytes b0 b1 b2 b3, rest, by rw [leBytes_headerOfBytes]; rfl⟩
  | [] | [_] | [_, _] | [_, _, _] => simp at h

/-- Either no whole packet stands at the head of the input, or a header with as many bytes as it calls for. -/
theorem decode_cases (bytes : List Byte) :
    decode bytes = .incomplete ∨ ∃ (h : Header) (payload rest : List Byte),
      bytes = leBytes 4 h.toNat ++ payload ++ rest ∧ payload.length = payloadLength h ∧
      decode bytes = (decodeHeader h).decoded payload rest := by
  obtain hshort | hlong := Nat.lt_or_ge bytes.length 4
  · exact .inl (decode_partial_header hshort)
  obtain ⟨h, units, rfl⟩ := exists_header_of_le_length hlong
  obtain hpartial | hwhole := Nat.lt_or_ge units.length (payloadLength h)
  · exact .inl (decode_partial_payload hpartial)
  · have hlen : (units.take (payloadLength h)).length = payloadLength h := List.length_take_of_le hwhole
    have hsplit : leBytes 4 h.toNat ++ units =
        leBytes 4 h.toNat ++ units.take (payloadLength h) ++ units.drop (payloadLength h) := by
      rw [List.append_assoc, List.take_append_drop]
    exact .inr ⟨h, _, _, hsplit, hlen, hsplit ▸ decode_packet _ hlen⟩

end Sys2Proof

open Sys2Proof Sys2Proof.Machine

/-- Settles O42. -/
theorem initPayloadHoldsSeeds : Obligations.InitPayloadHoldsSeeds :=
  fun _ rest hlen => decode_packet (h := 0x00000001) rest hlen

/-- Settles O44. -/
theorem writtenOutPacketsDecode : Obligations.WrittenOutPacketsDecode := by
  unfold Obligations.WrittenOutPacketsDecode
  decide

/-- Settles O48. -/
theorem unitWithoutHeaderIsIdle : Obligations.UnitWithoutHeaderIsIdle := by
  intro s hlen
  rw [step, decode_partial_header hlen]

/-- Settles O41: a whole payload is decoded by the header's kind, a partial one is waited for. -/
theorem headerTellsPayloadLength : Obligations.HeaderTellsPayloadLength := by
  intro h
  refine ⟨fun hopc => if_pos hopc, fun hh => by rw [hh]; rfl, fun hopc hh => ?_, fun payload rest hlen => ?_,
    fun payload hlen => ⟨decode_partial_payload hlen, fun s hs => ?_⟩⟩
  · rw [payloadLength, if_neg hopc, if_neg hh]
  · rw [decode_packet rest hlen]
    cases decodeHeader h with
    | init | append | digest64 | digest128 => exact .inl ⟨_, rfl⟩
    | illegalOpcode => exact .inr (.inl rfl)
    | illegalField => exact .inr (.inr rfl)
  · rw [step, hs, decode_partial_payload hlen]

end

section
/-! PROOFS. Decoding and encoding undo each other (spec/30_encoding.md R66, R67, R76). -/

namespace Sys2Proof

/-- The payload of a command with an encoding is as long as its header says (R70). -/
theorem length_payload {i : Instr} (h : i.wellFormed = true) : i.payload.length = payloadLength i.header := by
  have hpacket : (encode i).length = 4 + payloadLength i.header := by
    cases i with
    | init seed1 seed2 => exact Laws.PacketLength.init seed1 seed2 h
    | append payload => exact Laws.PacketLength.append payload h
    | digest64 => exact Laws.PacketLength.digest64 h
    | digest128 => exact Laws.PacketLength.digest128 h
  rw [encode, List.length_append, leBytes_length] at hpacket
  omega

theorem opc_header_append (payload : List Byte) : (Instr.append payload).header.opc = 0x02 := by
  apply BitVec.eq_of_toNat_eq
  rw [Header.toNat_opc, Instr.header, BitVec.toNat_ofNat]
  change _ = 2
  omega

/-- The header and the payload of a command say the command. -/
theorem decoded_header_payload {α : Type} (i : Instr) (rest : List α) :
    (decodeHeader i.header).decoded i.payload rest = .instr i rest := by
  cases i with
  | init seed1 seed2 =>
    have hk : decodeHeader (Instr.init seed1 seed2).header = .init := decodeHeader_eq_init_iff.2 rfl
    rw [hk, HeaderKind.decoded, Instr.payload, seedsOf_leBytes]
  | append payload => rw [decodeHeader_eq_append_iff.2 (opc_header_append payload)]; rfl
  | digest64 | digest128 => rfl

/-- The header of an APPEND counts its payload, so it is the header of the command. -/
theorem header_append_eq {h : Header} {payload : List Byte} (hopc : h.opc = 0x02)
    (hlen : payload.length = h.arg.toNat) : (Instr.append payload).header = h := by
  have hlow : h.toNat % 256 = 2 := by rw [← Header.toNat_opc, hopc]; rfl
  have hlt := h.isLt
  rw [Header.toNat_arg] at hlen
  apply BitVec.eq_of_toNat_eq
  rw [Instr.header, BitVec.toNat_ofNat]
  omega

/-- A packet that decodes to a command has the header and the payload of that command, which so has an encoding. -/
theorem eq_header_payload_of_decoded {h : Header} {payload rest tail : List Byte} {i : Instr}
    (hlen : payload.length = payloadLength h) (hd : (decodeHeader h).decoded payload rest = .instr i tail) :
    i.wellFormed = true ∧ i.header = h ∧ i.payload = payload ∧ tail = rest := by
  cases hk : decodeHeader h with
  | init =>
    rw [payloadLength_of_init hk] at hlen
    rw [hk] at hd
    obtain ⟨rfl, rfl⟩ := Decoded.instr.inj hd
    exact ⟨rfl, (decodeHeader_eq_init_iff.1 hk).symm, leBytes_seedsOf hlen, rfl⟩
  | append =>
    rw [payloadLength_of_append hk] at hlen
    rw [hk] at hd
    obtain ⟨rfl, rfl⟩ := Decoded.instr.inj hd
    have hmax : payload.length ≤ Config.lenMax := hlen ▸ Nat.le_of_lt_succ h.arg.isLt
    exact ⟨decide_eq_true hmax, header_append_eq (decodeHeader_eq_append_iff.1 hk) hlen, rfl, rfl⟩
  | digest64 =>
    rw [payloadLength_eq_zero (by simp [hk]) (by simp [hk])] at hlen
    rw [hk] at hd
    obtain ⟨rfl, rfl⟩ := Decoded.instr.inj hd
    exact ⟨rfl, (decodeHeader_eq_digest64_iff.1 hk).symm, (List.length_eq_zero_iff.1 hlen).symm, rfl⟩
  | digest128 =>
    rw [payloadLength_eq_zero (by simp [hk]) (by simp [hk])] at hlen
    rw [hk] at hd
    obtain ⟨rfl, rfl⟩ := Decoded.instr.inj hd
    exact ⟨rfl, (decodeHeader_eq_digest128_iff.1 hk).symm, (List.length_eq_zero_iff.1 hlen).symm, rfl⟩
  | illegalOpcode | illegalField => rw [hk] at hd; nomatch hd

end Sys2Proof

open Sys2Proof Sys2Proof.Machine

/-- Settles O35: the packet is whole, and its header and payload say the command. -/
theorem decodeOfEncode : Obligations.DecodeOfEncode := by
  intro i rest hwf
  rw [encode, decode_packet rest (length_payload hwf), decoded_header_payload]

/-- Settles O36: the bytes are a header and its payload, which are those of the command. -/
theorem decodedCommandIsItsOwnPacket : Obligations.DecodedCommandIsItsOwnPacket := by
  intro bytes i tail hd
  obtain hincomplete | ⟨h, payload, rest, hbytes, hlen, hdecoded⟩ := decode_cases bytes
  · rw [hincomplete] at hd
    nomatch hd
  · obtain ⟨hwf, rfl, rfl, rfl⟩ := eq_header_payload_of_decoded hlen (hdecoded.symm.trans hd)
    exact ⟨hwf, hbytes⟩

end

section
/-! PROOFS. The byte carrier and the word carrier (spec/30_encoding.md R76). -/

namespace Sys2Proof

/-- What is left when no four bytes are is one to three bytes, or none. -/
theorem length_of_ne_four {bs : List Byte}
    (hfour : ∀ (b0 b1 b2 b3 : Byte) (rest : List Byte), bs = b0 :: b1 :: b2 :: b3 :: rest → False)
    (hnil : bs = [] → False) : 0 < bs.length ∧ bs.length < 4 := by
  match bs with
  | [_] | [_, _] | [_, _, _] => simp
  | [] => exact (hnil rfl).elim
  | b0 :: b1 :: b2 :: b3 :: rest => exact (hfour b0 b1 b2 b3 rest rfl).elim

/-- As many words are packed as `wordCount` says. -/
theorem length_packWords (bs : List Byte) : (packWords bs).length = wordCount bs.length := by
  induction bs using packWords.induct with
  | case1 b0 b1 b2 b3 rest ih => simp only [packWords, wordCount, List.length_cons, ih]; omega
  | case2 => simp [packWords, wordCount]
  | case3 short hfour hnil =>
    obtain ⟨hpos, hlt⟩ := length_of_ne_four hfour hnil
    rw [packWords.eq_3 short hfour hnil, wordCount, List.length_singleton]
    omega

/-- Packed bytes are unpacked with fewer than four zeros behind them. -/
theorem unpackWords_packWords (bs : List Byte) :
    ∃ pad, pad < 4 ∧ unpackWords (packWords bs) = bs ++ List.replicate pad 0 := by
  induction bs using packWords.induct with
  | case1 b0 b1 b2 b3 rest ih =>
    obtain ⟨pad, hpad, hrest⟩ := ih
    refine ⟨pad, hpad, ?_⟩
    rw [packWords, unpackWords, leBytes_headerOfBytes, hrest]
    rfl
  | case2 => exact ⟨0, by decide, by simp [packWords, unpackWords]⟩
  | case3 short hfour hnil =>
    obtain ⟨hpos, hlt⟩ := length_of_ne_four hfour hnil
    refine ⟨4 - short.length, by omega, ?_⟩
    rw [packWords.eq_3 short hfour hnil, unpackWords, unpackWords, List.append_nil, leBytes_ofNat_leNat hlt.le]

/-- Decoding on the word carrier gives back the command that was packed; the zeros at the end are not looked at. -/
theorem decodeWords_encodeWords {i : Instr} (hwf : i.wellFormed = true) (rest : List (BitVec 32)) :
    decodeWords (encodeWords i ++ rest) = .instr i rest := by
  obtain ⟨pad, -, hunpack⟩ := unpackWords_packWords i.payload
  have hcount : (packWords i.payload).length = wordCount (payloadLength i.header) := by
    rw [length_packWords, length_payload hwf]
  have hpayload : (unpackWords (packWords i.payload)).take (payloadLength i.header) = i.payload := by
    rw [hunpack, ← length_payload hwf, List.take_left]
  rw [encodeWords, List.cons_append, decodeWords_eq_decodeBehind, decodeBehind, ← hcount, if_pos (by simp),
    List.take_left, List.drop_left]
  simp only [hpayload, decoded_header_payload]

/-! ### Illegal headers -/

section
variable {α : Type} {k : HeaderKind} {units : List α}

/-- An illegal header decodes as no other kind of header does. -/
theorem HeaderKind.eq_of_decoded_eq {k' : HeaderKind} {payload : List Byte} {rest : List α}
    (hk : k = .illegalOpcode ∨ k = .illegalField) (hd : k'.decoded payload rest = k.decoded [] units) : k' = k := by
  obtain rfl | rfl := hk
  · cases k' with
    | illegalOpcode => rfl
    | _ => nomatch hd
  · cases k' with
    | illegalField => rfl
    | _ => nomatch hd

/-- An illegal header is answered behind the header alone, on either carrier (R68). -/
theorem decodeBehind_eq_illegal_iff {h : Header} {n : Nat} {payloadOf : List α → List Byte}
    (hk : k = .illegalOpcode ∨ k = .illegalField) (hn : payloadLength h = 0 → n = 0) :
    decodeBehind h n payloadOf units = k.decoded [] units ↔ decodeHeader h = k := by
  constructor
  · intro hd
    rw [decodeBehind] at hd
    split at hd
    · exact HeaderKind.eq_of_decoded_eq hk hd
    · obtain rfl | rfl := hk <;> nomatch hd
  · rintro rfl
    have hinit : decodeHeader h ≠ .init := by obtain hk | hk := hk <;> simp [hk]
    have happend : decodeHeader h ≠ .append := by obtain hk | hk := hk <;> simp [hk]
    rw [decodeBehind, hn (payloadLength_eq_zero hinit happend), if_pos (Nat.zero_le _)]
    obtain hk | hk := hk <;> rw [hk] <;> rfl

end

theorem wordCount_eq_zero {n : Nat} (h : n = 0) : wordCount n = 0 := by
  rw [h]
  rfl

end Sys2Proof

open Sys2Proof Sys2Proof.Machine

/-- Settles O43: each carrier decodes what its encoder writes, and both look at the same header. -/
theorem wordCarrierCarriesTheSamePackets : Obligations.WordCarrierCarriesTheSamePackets := by
  refine ⟨fun i rest hwf => ?_, fun h ws bytes => ?_⟩
  · obtain ⟨pad, hpad, hunpack⟩ := unpackWords_packWords i.payload
    have hfirst : (encode i).head? = some i.header.opc := congrArg some (ofNat_toNat_eq_opc i.header)
    have hbytes : decode (encode i) = .instr i [] := by simpa using decodeOfEncode i [] hwf
    exact ⟨rfl, hfirst, ⟨_, pad, rfl, hpad, hunpack⟩, hbytes, decodeWords_encodeWords hwf rest⟩
  · rw [decode_eq_decodeBehind, decodeWords_eq_decodeBehind]
    exact ⟨(decodeBehind_eq_illegal_iff (.inl rfl) wordCount_eq_zero).trans
        (decodeBehind_eq_illegal_iff (.inl rfl) id).symm,
      (decodeBehind_eq_illegal_iff (.inr rfl) wordCount_eq_zero).trans
        (decodeBehind_eq_illegal_iff (.inr rfl) id).symm⟩

end

section
/-! PROOFS. What each command does to the two ends of the interface (spec/30_encoding.md R60, R74): it looks at neither,
leaves the input and emits one response. So steps over packets are a run of their commands (R171). -/

namespace Sys2Proof.Machine

/-! ### Responses -/

/-- APPEND answers OK without a digest (R74). -/
theorem execAppend_output {payload : List Byte} {s t : State} (h : execAppend payload s = .next t) :
    t.output = s.output ++ [okResponse] := by
  obtain ⟨u, hu, rfl⟩ := execAppend_eq_next.1 h
  obtain ⟨-, -, hout⟩ := absorb_frame hu
  simp [hout]

theorem execAppend_input {payload : List Byte} {s t : State} (h : execAppend payload s = .next t) :
    t.input = s.input := by
  obtain ⟨u, hu, rfl⟩ := execAppend_eq_next.1 h
  obtain ⟨-, hin, -⟩ := absorb_frame hu
  exact hin

/-- Every command that completes leaves the input and adds one response to the output (R60, R74). -/
theorem exec_interface {i : Instr} {s t : State} (h : exec i s = .next t) :
    t.input = s.input ∧ ∃ r, t.output = s.output ++ [r] := by
  cases i with
  | init seed1 seed2 =>
    obtain rfl := Host.Outcome.next.inj h
    exact ⟨rfl, _, rfl⟩
  | append payload => exact ⟨execAppend_input h, _, execAppend_output h⟩
  | digest64 =>
    obtain ⟨w, -, rfl⟩ := execDigest64_eq_next.1 h
    exact ⟨rfl, _, rfl⟩
  | digest128 =>
    obtain ⟨w, -, rfl⟩ := execDigest128_eq_next.1 h
    exact ⟨rfl, _, rfl⟩

/-! ### The input decides nothing -/

/-- The outcome with `bytes` left on the input, if there is a next state. -/
def leaving (bytes : List Byte) : Host.Outcome State Fault Refusal → Host.Outcome State Fault Refusal
  | .next s => .next (s.setInput bytes)
  | .fault f => .fault f
  | .refused r => .refused r

theorem readBufBytes_setInput (s : State) (bytes : List Byte) (a n : Nat) :
    readBufBytes (s.setInput bytes) a n = readBufBytes s a n :=
  readBufBytes_congr (s := s) (t := s.setInput bytes) rfl rfl a n

theorem appendBuffered_setInput (payload : List Byte) (s : State) (bytes : List Byte) :
    appendBuffered payload (s.setInput bytes) = (appendBuffered payload s).map (·.setInput bytes) := by
  simp only [appendBuffered, State.setInput_buf, State.setInput_bufferedLength]
  cases writeBufBytes s.buf s.bufferedLength.toNat payload <;> rfl

theorem appendDispatch_setInput (payload : List Byte) (s : State) (bytes : List Byte) :
    appendDispatch payload (s.setInput bytes) = (·.setInput bytes) <$> appendDispatch payload s := by
  simp only [appendDispatch, readBufBytes_setInput, State.setInput_buf, State.setInput_bufferedLength,
    State.setInput_state, map_bind]
  rfl

theorem absorb_setInput (payload : List Byte) (s : State) (bytes : List Byte) :
    absorb payload (s.setInput bytes) = (absorb payload s).map (·.setInput bytes) := by
  rw [absorb, absorb, State.setInput_bufferedLength]
  split
  · exact appendBuffered_setInput payload s bytes
  · exact appendDispatch_setInput payload s bytes

/-- A command does the same whatever is on the input, and leaves it (R29, R60). -/
theorem exec_setInput (i : Instr) (s : State) (bytes : List Byte) :
    exec i (s.setInput bytes) = leaving bytes (exec i s) := by
  have hfinal : finalize (s.setInput bytes) = finalize s := finalize_congr (s.setInput_sameArch bytes)
  cases i with
  | init seed1 seed2 => rfl
  | append payload =>
    simp only [exec, execAppend, absorb_setInput]
    cases absorb payload s <;> rfl
  | digest64 =>
    simp only [exec, execDigest64, hfinal]
    cases finalize s <;> rfl
  | digest128 =>
    simp only [exec, execDigest128, hfinal]
    cases finalize s <;> rfl

/-! ### Runs of steps -/

section
variable {M : Host.Core} {n : Nat} {s t : M.State}

theorem run_succ_of_next (h : M.step s = .next t) : M.run (n + 1) s = M.run n t := by rw [Host.Core.run, h]

theorem run_succ_of_fault {f : M.Fault} (h : M.step s = .fault f) : M.run (n + 1) s = .fault f := by
  rw [Host.Core.run, h]

theorem run_succ_of_refused {r : M.Refusal} (h : M.step s = .refused r) : M.run (n + 1) s = .refused r := by
  rw [Host.Core.run, h]

end

/-- Steps over packets of commands with an encoding are the run of the commands, whatever follows the packets. -/
theorem run_encodeAll (commands : List Instr) {s : State} {rest : List Byte}
    (hwf : commands.all Instr.wellFormed = true) (hin : s.input = encodeAll commands ++ rest) :
    core.run commands.length s = runCommands commands (s.setInput rest) := by
  induction commands generalizing s with
  | nil =>
    have hs : s.setInput rest = s := by rw [← show s.input = rest from hin]; rfl
    rw [hs]
    rfl
  | cons i is ih =>
    simp only [List.all_cons, Bool.and_eq_true] at hwf
    obtain ⟨hi, his⟩ := hwf
    have hdecode : decode s.input = .instr i (encodeAll is ++ rest) := by
      rw [hin, encodeAll, List.flatMap_cons, List.append_assoc]
      exact decodeOfEncode i _ hi
    have hstep : core.step s = leaving (encodeAll is ++ rest) (exec i s) :=
      (step_of_decode_instr hdecode).trans (exec_setInput i s _)
    rw [runCommands, exec_setInput]
    cases hexec : exec i s <;> rw [hexec] at hstep
    case next u => exact (run_succ_of_next hstep).trans (ih (s := u.setInput (encodeAll is ++ rest)) his rfl)
    case fault f => exact run_succ_of_fault hstep
    case refused r => exact run_succ_of_refused hstep

end Sys2Proof.Machine

open Sys2Proof Sys2Proof.Machine

/-- Settles O49, by induction on the commands (`run_encodeAll`). -/
theorem stepsOverPacketsRunTheCommands : Obligations.StepsOverPacketsRunTheCommands :=
  fun commands _ _ hwf hin => run_encodeAll commands hwf hin

/-- Settles O6. -/
theorem init0AfterResetChangesNothing : Obligations.Init0AfterResetChangesNothing := ⟨rfl, rfl⟩

/-- Settles O21: what each command emits, and the responses to illegal headers. -/
theorem responseFormat : Obligations.ResponseFormat := by
  refine ⟨rfl, rfl, rfl, fun seed1 seed2 s t h => ?_, fun _ _ _ h => execAppend_output h, fun s t h => ?_,
    fun s t h => ?_, fun s rest hd => ?_, fun s rest hd => ?_⟩
  · obtain rfl := Host.Outcome.next.inj h
    rfl
  · obtain ⟨w, hw, rfl⟩ := execDigest64_eq_next.1 h
    exact ⟨w, hw, rfl⟩
  · obtain ⟨w, hw, rfl⟩ := execDigest128_eq_next.1 h
    exact ⟨w, hw, rfl⟩
  · rw [step, hd]
    exact ⟨_, rfl, rfl⟩
  · rw [step, hd]
    exact ⟨_, rfl, rfl⟩

/-- Settles O46: the step's case, on the one packet that the input begins with. -/
theorem oneResponsePerPacket : Obligations.OneResponsePerPacket := by
  intro s t h
  obtain hincomplete | ⟨hd, payload, rest, hbytes, hlen, hdecode⟩ := decode_cases s.input
  · rw [step, hincomplete] at h
    exact .inl ⟨hincomplete, (Host.Outcome.next.inj h).symm⟩
  have hpacket : t.input = rest ∧ ∃ r, t.output = s.output ++ [r] := by
    rw [step, hdecode] at h
    cases hk : decodeHeader hd <;> rw [hk] at h
    case illegalOpcode | illegalField =>
      obtain rfl := Host.Outcome.next.inj h
      exact ⟨rfl, _, rfl⟩
    all_goals exact exec_interface h
  obtain ⟨rfl, r, hout⟩ := hpacket
  exact .inr ⟨hd, payload, r, hbytes, hlen, hout⟩

end

section
/-! PROOFS. The digest of a stream (spec/40_streaming_commands.md R88 to R92, R97), and the one-shot forms that answer it
(spec/30_encoding.md R73). -/

namespace Sys2Proof.Machine

/-! ### Finalize behind a stream -/

theorem shortMode_iff {s : State} : shortMode s = true ↔ s.totalLength.toNat < 192 := decide_eq_true_iff

/-- A stream of 192 bytes or more: all its whole blocks are mixed, and the rest is finished (R97). -/
theorem digestOf_of_le {X : List Byte} (seed1 seed2 : Word) (h : 192 ≤ X.length) :
    digestOf seed1 seed2 X =
      finishLong (X.drop (96 * (X.length / 96))) (mixFold (X.length / 96) X (seeded seed1 seed2)) := by
  have hmix := mixBlocks_eq_mixFold (n := X.length / 96) (S := X) (seeded seed1 seed2) (by omega)
  have hslice : sliceAt X (96 * (X.length / 96)) (X.length % 96) = .ok (X.drop (96 * (X.length / 96))) := by
    rw [sliceAt_ok (by omega), List.take_of_length_le (by simp; omega)]
  simp only [digestOf, Config.bufSize, Config.blockSize, Nat.not_lt.2 h, if_false, hmix, hslice, bind_ok]

/-- Every stream has a digest. -/
theorem digestOf_total (seed1 seed2 : Word) (X : List Byte) : ∃ w, digestOf seed1 seed2 X = .ok w := by
  obtain h | h := Nat.lt_or_ge X.length 192
  · rw [digestOf, if_pos h]
    exact short_total X seed1 seed2
  · rw [digestOf_of_le seed1 seed2 h]
    exact ⟨_, finishLong_ok _ (by rw [List.length_drop]; omega)⟩

/-- The long path mixes the block that is buffered whole, if one is, and finishes the rest (R90 to R92). -/
theorem finalizeLong_of_holds {s : State} {bytes : List Byte} (h : s.Holds bytes) :
    finalizeLong s = finishLong (bytes.drop (96 * (bytes.length / 96))) (mixFold (bytes.length / 96) bytes s.state) := by
  have hlt := h.length_lt
  simp only [finalizeLong, Config.blockSize, h.bufferedLength_eq]
  split
  · next hfull =>
    have hone : bytes.length / 96 = 1 := by omega
    have hblock : blockWords (bytes.take 96) = .ok (wordsOf (bytes.take 96)) := blockWords_ok (by simp; omega)
    have htail : (bytes.drop 96).take (bytes.length - 96) = bytes.drop 96 := List.take_of_length_le (by simp)
    rw [readBufBytes_of_holds h (by omega), bind_ok, List.drop_zero, hblock, bind_ok,
      readBufBytes_of_holds h (by omega), bind_ok, htail, hone, mixFold_one]
  · next hpart =>
    have hnone : bytes.length / 96 = 0 := by omega
    rw [readBufBytes_of_holds h (by omega), bind_ok, hnone, mixFold_zero, List.drop_zero, List.take_length]

/-- Behind a stream Finalize is the digest of the stream (R97). -/
theorem State.Streamed.finalize_eq {seed1 seed2 : Word} {X : List Byte} {n : Nat} {t : State}
    (h : t.Streamed (seeded seed1 seed2) X n) : finalize t = digestOf seed1 seed2 X := by
  obtain ⟨hle, hstate, hholds, htotal, hshort⟩ := h
  obtain hlt | hge := Nat.lt_or_ge X.length 192
  · obtain rfl := hshort hlt
    have hmode : shortMode t = true := shortMode_iff.2 (by omega)
    rw [finalize, if_pos hmode, finalizeShort_of_holds hholds, digestOf, if_pos hlt, hstate]
    rfl
  · have hmode : ¬ shortMode t = true := by
      rw [shortMode_iff]
      omega
    have hblocks : n + (X.drop (96 * n)).length / 96 = X.length / 96 := by rw [List.length_drop]; omega
    rw [finalize, if_neg hmode, finalizeLong_of_holds hholds, digestOf_of_le seed1 seed2 hge, hstate, ← mixFold_add,
      List.drop_drop, ← Nat.mul_add, hblocks]

/-! ### Runs in two parts -/

theorem runCommands_append {first : List Instr} {s t : State} (second : List Instr) (h : runCommands first s = .next t) :
    runCommands (first ++ second) s = runCommands second t := by
  induction first generalizing s with
  | nil =>
    obtain rfl := Host.Outcome.next.inj h
    rfl
  | cons i is ih =>
    rw [List.cons_append, runCommands]
    rw [runCommands] at h
    cases hexec : exec i s <;> rw [hexec] at h
    case next u => exact ih h
    all_goals nomatch h

/-- A digest as the last command of a run that completes up to it. -/
theorem runCommands_append_singleton {first : List Instr} {d : Instr} {s t u : State}
    (h : runCommands first s = .next t) (hd : exec d t = .next u) : runCommands (first ++ [d]) s = .next u := by
  rw [runCommands_append [d] h, runCommands, hd]
  rfl

/-! ### The one-shot forms (R73) -/

theorem flatten_cutMessage (n : Nat) (bytes : List Byte) : (cutMessage n bytes).flatten = bytes := by
  induction n generalizing bytes with
  | zero => simp [cutMessage]
  | succ n ih => rw [cutMessage, List.flatten_cons, ih, List.take_append_drop]

/-- Enough cuts leave no piece longer than LEN can count. -/
theorem length_le_of_mem_cutMessage {n : Nat} {bytes piece : List Byte}
    (h : bytes.length ≤ (n + 1) * Config.lenMax) (hpiece : piece ∈ cutMessage n bytes) :
    piece.length ≤ Config.lenMax := by
  induction n generalizing bytes with
  | zero =>
    obtain rfl := List.mem_singleton.1 hpiece
    simpa using h
  | succ n ih =>
    obtain rfl | hrest := List.mem_cons.1 hpiece
    · exact List.length_take_le _ _
    · refine ih ?_ hrest
      rw [List.length_drop]
      rw [Nat.succ_mul (n + 1)] at h
      omega

/-- The APPENDs of a message have an encoding. -/
theorem appendsOf_wellFormed (bytes : List Byte) : (appendsOf bytes).all Instr.wellFormed = true := by
  have hcuts : bytes.length ≤ ((bytes.length - 1) / Config.lenMax + 1) * Config.lenMax := by
    simp only [Config.lenMax]
    omega
  rw [appendsOf, List.all_map, List.all_eq_true]
  exact fun piece hpiece => decide_eq_true (length_le_of_mem_cutMessage hcuts hpiece)

/-- INIT and the APPENDs of a message leave a state in which Finalize is the digest of the message. -/
theorem runCommands_init_appendsOf (seed1 seed2 : Word) (bytes : List Byte) (s : State) :
    ∃ t, runCommands (.init seed1 seed2 :: appendsOf bytes) s = .next t ∧ finalize t = digestOf seed1 seed2 bytes := by
  obtain ⟨n, t, ht, hstream⟩ := runCommands_init_streamed seed1 seed2
    (cutMessage ((bytes.length - 1) / Config.lenMax) bytes) s
  rw [flatten_cutMessage] at hstream
  exact ⟨t, ht, hstream.finalize_eq⟩

end Sys2Proof.Machine

open Sys2Proof Sys2Proof.Machine

/-- Settles O25: both forms run to a state in which Finalize is the digest of the message. -/
theorem oneShotFormsAnswerDigest : Obligations.OneShotFormsAnswerDigest := by
  intro s seed1 seed2 msg
  have hwf (d : Instr) (hd : d.wellFormed = true) :
      (Instr.init seed1 seed2 :: (appendsOf msg ++ [d])).all Instr.wellFormed = true := by
    rw [List.all_cons, List.all_append, appendsOf_wellFormed, List.all_cons, hd]
    rfl
  obtain ⟨t, ht, hfinal⟩ := runCommands_init_appendsOf seed1 seed2 msg s
  obtain ⟨⟨w0, w1⟩, hw⟩ := digestOf_total seed1 seed2 msg
  have h64 := execDigest64_eq_next.2 ⟨_, hfinal.trans hw, rfl⟩
  have h128 := execDigest128_eq_next.2 ⟨_, hfinal.trans hw, rfl⟩
  exact ⟨hwf .digest64 rfl, hwf .digest128 rfl, w0, w1, hw,
    ⟨_, runCommands_append_singleton ht (d := .digest64) h64, by simp⟩,
    ⟨_, runCommands_append_singleton ht (d := .digest128) h128, by simp⟩⟩

end

section
/-! PROOFS. INIT (spec/40_streaming_commands.md R80), and the answer to an illegal header (spec/60_exceptions.md R142,
R146). -/

namespace Sys2Proof.Machine

/-- The seeded pattern word by word (R80). -/
theorem getElem_seeded (seed1 seed2 : Word) (i : Fin 12) :
    (seeded seed1 seed2)[i] =
      if i.val % 3 = 0 then seed1 else if i.val % 3 = 1 then seed2 else 0xdeadbeefdeadbeef := by
  fin_cases i <;> rfl

/-- A header that names a command without an ARG, and has one, is illegal (R68). -/
theorem decodeHeader_eq_illegalField {h : Header} (hopc : h.opc = 0x01 ∨ h.opc = 0x03 ∨ h.opc = 0x04)
    (harg : h.arg ≠ 0) : decodeHeader h = .illegalField := by
  obtain hopc | hopc | hopc := hopc <;> simpa [decodeHeader, hopc] using harg

/-- Of an illegal field the header alone is consumed, and nothing but the answer comes of it (R142, R146). -/
theorem step_of_illegalField {s : State} {h : Header} {rest : List Byte} (hin : s.input = leBytes 4 h.toNat ++ rest)
    (hk : decodeHeader h = .illegalField) :
    step s = .next { s with input := rest, output := s.output ++ [⟨.illegalField, 0, 0⟩] } := by
  have hdecode : decode s.input = .illegalField rest := by
    rw [hin, decode_eq_decodeBehind]
    exact (decodeBehind_eq_illegal_iff (.inr rfl) id).2 hk
  rw [step, hdecode]
  rfl

end Sys2Proof.Machine

open Sys2Proof Sys2Proof.Machine

/-- Settles O5: INIT reads no state, and its illegal headers are answered. -/
theorem initSeedsStateAndZeroesCounters : Obligations.InitSeedsStateAndZeroesCounters :=
  ⟨fun seed1 seed2 _ => ⟨_, rfl, getElem_seeded seed1 seed2, rfl, rfl, rfl, rfl, rfl⟩,
    fun _ _ _ hin hopc harg => step_of_illegalField hin (decodeHeader_eq_illegalField (.inl hopc) harg)⟩

end

section
/-! PROOFS. APPEND offset by offset (spec/40_streaming_commands.md R82 to R85), and that what it hashes depends neither
on TOTAL_LENGTH nor on the interface. -/

namespace Sys2Proof.Machine

/-! ### What an APPEND reads -/

section hashed

variable {payload : List Byte} {s t u : State} (hstate : t.state = s.state) (hbuf : t.buf = s.buf)
  (hlen : t.bufferedLength = s.bufferedLength)

include hstate hbuf hlen

/-- Absorbing reads and writes STATE, BUF and BUFFERED_LENGTH only (R82, R83). -/
theorem absorb_of_hashed_eq (h : absorb payload s = .ok u) :
    absorb payload t = .ok { t with state := u.state, buf := u.buf, bufferedLength := u.bufferedLength } := by
  rw [absorb] at h ⊢
  rw [hlen]
  split at h
  · next hlt =>
    obtain ⟨buf, hw, hs⟩ := appendBuffered_ok hlt
    obtain rfl := Except.ok.inj (hs.symm.trans h)
    rw [if_pos hlt, appendBuffered, hbuf, hlen, hw]
    simp [← hstate, State.setBuf, State.setBufferedLength]
  · next hge =>
    obtain ⟨tail, st, left, buf, hread, hmix, hslice, hw, rfl⟩ := appendDispatch_eq_ok h
    rw [if_neg hge]
    simp only [appendDispatch, readBufBytes_congr hbuf hlen, hlen, hstate, hbuf, hread, hmix, hslice, hw, bind_ok]
    rfl

/-- An APPEND that completes does the same to STATE, BUF and BUFFERED_LENGTH whatever was counted or answered before. -/
theorem execAppend_of_hashed_eq (h : execAppend payload s = .next u) :
    execAppend payload t = .next { u with
      totalLength := addToTotal t.totalLength payload.length
      input := t.input
      output := t.output ++ [okResponse] } := by
  obtain ⟨v, hv, rfl⟩ := execAppend_eq_next.1 h
  exact execAppend_eq_next.2 ⟨_, absorb_of_hashed_eq hstate hbuf hlen hv, rfl⟩

end hashed

/-! ### The two cases -/

/-- The buffer-only case, and the copy it makes (R82). -/
theorem execAppend_of_lt {payload : List Byte} {s : State} (h : s.bufferedLength.toNat + payload.length < 192) :
    ∃ buf, writeBufBytes s.buf s.bufferedLength.toNat payload = .ok buf ∧
      execAppend payload s = .next ((((s.setBuf buf).setBufferedLength
        (BitVec.ofNat 8 (s.bufferedLength.toNat + payload.length))).setTotalLength
          (addToTotal s.totalLength payload.length)).emit okResponse) := by
  obtain ⟨buf, hw, hs⟩ := appendBuffered_ok h
  exact ⟨buf, hw, execAppend_eq_next.2 ⟨_, by rw [absorb, if_pos h, hs], rfl⟩⟩

/-- The dispatch case writes the offsets of the leftover only (R83; log entry 3). -/
theorem appendDispatch_read_other {payload : List Byte} {s t : State} (h : appendDispatch payload s = .ok t) {a : Nat}
    (ha : t.bufferedLength.toNat ≤ a) : t.buf.read a = s.buf.read a := by
  obtain ⟨tail, st, left, buf, -, -, hslice, hw, rfl⟩ := appendDispatch_eq_ok h
  obtain ⟨hin, rfl⟩ := sliceAt_eq_ok.1 hslice
  have hout : ¬ (0 ≤ a ∧ a < 0 + (tail ++ payload).length % 96) := by
    simp only [State.setBufferedLength_bufferedLength, BitVec.toNat_ofNat, Config.blockSize] at ha
    omega
  rw [State.setBufferedLength_buf, State.setBuf_buf, writeBufBytes_read hw, List.length_take_of_le, if_neg hout]
  rw [List.length_drop]
  omega

theorem execAppend_read_other {payload : List Byte} {s t : State} (h : execAppend payload s = .next t)
    (hge : 192 ≤ s.bufferedLength.toNat + payload.length) {a : Nat} (ha : t.bufferedLength.toNat ≤ a) :
    t.buf.read a = s.buf.read a := by
  obtain ⟨u, hu, rfl⟩ := execAppend_eq_next.1 h
  rw [absorb, if_neg (Nat.not_lt.2 hge)] at hu
  exact appendDispatch_read_other hu ha

end Sys2Proof.Machine

open Sys2Proof Sys2Proof.Machine

/-- Settles O7: the copy of the buffer-only case, offset by offset. -/
theorem appendBelowThresholdCopiesToBuf : Obligations.AppendBelowThresholdCopiesToBuf := by
  intro payload s hlt
  obtain ⟨buf, hw, ht⟩ := execAppend_of_lt hlt
  refine ⟨_, ht, rfl, ?_, addToTotal_toNat _ _, fun j hj => ?_, fun a ha => ?_, rfl, rfl⟩
  · simp only [State.emit_bufferedLength, State.setTotalLength_bufferedLength,
      State.setBufferedLength_bufferedLength, BitVec.toNat_ofNat]
    omega
  · exact (writeBufBytes_read hw _).trans (by rw [if_pos (by omega), Nat.add_sub_cancel_left])
  · exact (writeBufBytes_read hw _).trans (if_neg (by omega))

/-- Settles O8: what an APPEND makes of a state that holds `bytes`, in the case that blocks are mixed. -/
theorem appendFromThresholdMixesEveryFullBlock : Obligations.AppendFromThresholdMixesEveryFullBlock := by
  intro payload bytes s hs hge S nb r
  have hlen : bytes.length + payload.length = S.length := List.length_append.symm
  obtain ⟨t, ht, ⟨hstate, hholds, -⟩, htotal, hout⟩ := execAppend_of_holds hs payload
  rw [hlen] at hge
  rw [hlen, blocksMixed_of_le hge] at hstate hholds
  have hbuffered : t.bufferedLength.toNat = r := by
    rw [hholds.bufferedLength_eq, List.length_drop]
    exact (Nat.mod_eq_sub S.length 96).symm
  refine ⟨t, ht, hstate, hbuffered, by rw [htotal, addToTotal_toNat], fun j hj => ?_, fun a ha => ?_,
    execAppend_input ht, hout⟩
  · rw [hholds.read (by rwa [← hholds.bufferedLength_eq, hbuffered]), List.getElem?_drop]
  · exact execAppend_read_other ht (by rw [hs.bufferedLength_eq]; omega) (by rwa [hbuffered])

/-- Settles O9: it is the buffer-only case, and copies and counts nothing. -/
theorem zeroLengthAppendChangesNothing : Obligations.ZeroLengthAppendChangesNothing := by
  intro s hle
  obtain ⟨buf, hw, ht⟩ := execAppend_of_lt (payload := []) (s := s) (Nat.lt_succ_of_le hle)
  obtain rfl := Except.ok.inj hw
  rw [List.length_nil, addToTotal_zero, Nat.add_zero, BitVec.ofNat_toNat, BitVec.setWidth_eq] at ht
  exact ht

/-- Settles O10: the count of an APPEND that completes, and that what it hashes does not depend on the count. -/
theorem appendCountsBytesWithSaturation : Obligations.AppendCountsBytesWithSaturation := by
  refine ⟨fun payload s t h => ?_, fun payload s t total h => ?_⟩
  · rw [execAppend_totalLength h, addToTotal_toNat]
  · exact ⟨_, execAppend_of_hashed_eq (s := s) rfl rfl rfl h, rfl, rfl, rfl⟩

end

section
/-! PROOFS. The digests (spec/40_streaming_commands.md R87 to R95): what each answers, and that it writes nothing. -/

namespace Sys2Proof.Machine

/-- Both digests answer from what Finalize gives, and change nothing but the output (R87, R93). -/
theorem exec_digests_of_finalize {s : State} {w0 w1 : Word} (h : finalize s = .ok (w0, w1)) :
    exec .digest128 s = .next { s with output := s.output ++ [⟨.ok, w0, w1⟩] } ∧
      exec .digest64 s = .next { s with output := s.output ++ [⟨.ok, w0, 0⟩] } :=
  ⟨execDigest128_eq_next.2 ⟨_, h, rfl⟩, execDigest64_eq_next.2 ⟨_, h, rfl⟩⟩

/-- Finalize selects by TOTAL_LENGTH between SHORT over the buffered bytes, and a pending whole block and the padded last
block (R88 to R92). -/
theorem finalize_of_holds {s : State} {bytes : List Byte} (h : s.Holds bytes) :
    finalize s = if s.totalLength.toNat < 192 then short bytes s.state[0] s.state[1]
      else finishLong (bytes.drop (96 * (bytes.length / 96))) (mixFold (bytes.length / 96) bytes s.state) := by
  rw [finalize, finalizeShort_of_holds h, finalizeLong_of_holds h]
  exact if_congr shortMode_iff rfl rfl

/-- Finalize completes over any valid region that is filled. -/
theorem finalize_total_of_holds {s : State} {bytes : List Byte} (h : s.Holds bytes) : ∃ w, finalize s = .ok w := by
  rw [finalize_of_holds h]
  split
  · exact short_total bytes _ _
  · exact ⟨_, finishLong_ok _ (by rw [List.length_drop]; omega)⟩

/-- Below 192 bytes the buffer is no more than one block full. -/
theorem mixFold_div_of_lt {bytes : List Byte} (hlt : bytes.length < 192) (h : Words12) :
    mixFold (bytes.length / 96) bytes h = if 96 ≤ bytes.length then mix (wordsOf (bytes.take 96)) h else h := by
  split
  · next hfull => rw [show bytes.length / 96 = 1 by omega, mixFold_one]
  · next hpart => rw [show bytes.length / 96 = 0 by omega, mixFold_zero]

theorem drop_div_of_lt {bytes : List Byte} (hlt : bytes.length < 192) :
    bytes.drop (96 * (bytes.length / 96)) = if 96 ≤ bytes.length then bytes.drop 96 else bytes := by
  split
  · next hfull => rw [show bytes.length / 96 = 1 by omega, Nat.mul_one]
  · next hpart => rw [show bytes.length / 96 = 0 by omega, Nat.mul_zero, List.drop_zero]

/-- A digest that completes emits one response with STATUS OK, and does no more (R95). -/
theorem exec_digest_emits {d : Instr} (hd : d = .digest64 ∨ d = .digest128) {s t : State} (h : exec d s = .next t) :
    ∃ r, r.status = .ok ∧ t = s.emit r := by
  obtain rfl | rfl := hd
  · obtain ⟨w, -, ht⟩ := execDigest64_eq_next.1 h
    exact ⟨_, rfl, ht⟩
  · obtain ⟨w, -, ht⟩ := execDigest128_eq_next.1 h
    exact ⟨_, rfl, ht⟩

/-- Emitting a response before a command changes nothing of what the command does (R95). -/
theorem exec_emit {i : Instr} {s u : State} (h : exec i s = .next u) (r : Response) :
    ∃ q, u.output = s.output ++ [q] ∧ exec i (s.emit r) = .next { u with output := (s.emit r).output ++ [q] } := by
  have hfinal : finalize (s.emit r) = finalize s := finalize_congr (s.emit_sameArch r)
  cases i with
  | init seed1 seed2 =>
    obtain rfl := Host.Outcome.next.inj h
    exact ⟨okResponse, rfl, rfl⟩
  | append payload =>
    refine ⟨okResponse, execAppend_output h, ?_⟩
    have hemit := execAppend_of_hashed_eq (s := s) (t := s.emit r) rfl rfl rfl h
    rwa [State.emit_totalLength, ← execAppend_totalLength h, State.emit_input, ← execAppend_input h] at hemit
  | digest64 =>
    obtain ⟨w, hw, rfl⟩ := execDigest64_eq_next.1 h
    exact ⟨_, rfl, execDigest64_eq_next.2 ⟨w, hfinal.trans hw, rfl⟩⟩
  | digest128 =>
    obtain ⟨w, hw, rfl⟩ := execDigest128_eq_next.1 h
    exact ⟨_, rfl, execDigest128_eq_next.2 ⟨w, hfinal.trans hw, rfl⟩⟩

end Sys2Proof.Machine

open Sys2Proof Sys2Proof.Machine

/-- Settles O11: SHORT has a value for every message. -/
theorem digestBelowThresholdIsShort : Obligations.DigestBelowThresholdIsShort := by
  intro s bytes hs hlt
  obtain ⟨⟨w0, w1⟩, hw⟩ := short_total bytes s.state[0] s.state[1]
  have hfinal : finalize s = .ok (w0, w1) := by rw [finalize_of_holds hs, if_pos hlt, hw]
  obtain ⟨h128, h64⟩ := exec_digests_of_finalize hfinal
  exact ⟨w0, w1, hw, h128, h64, fun hinv =>
    ⟨hs.bufferedLength_eq.symm.trans (hinv.shortBuffered hlt), hinv.shortSeeded hlt⟩⟩

/-- Settles O12: the buffer holds one whole block or none, and a tail that is padded to one. -/
theorem digestFromThresholdFinalizesPaddedBlock : Obligations.DigestFromThresholdFinalizesPaddedBlock := by
  intro s bytes hs hge h tail last w
  have hlt := hs.length_lt
  have hdrop : bytes.drop (96 * (bytes.length / 96)) = tail := drop_div_of_lt hlt
  have htail : tail.length ≤ 95 := by
    rw [← hdrop, List.length_drop]
    omega
  have hfinal : finalize s = .ok (w[0], w[1]) := by
    rw [finalize_of_holds hs, if_neg (Nat.not_lt.2 hge), mixFold_div_of_lt hlt, hdrop]
    exact finishLong_ok h htail
  exact ⟨lastBlock_length htail, exec_digests_of_finalize hfinal⟩

/-- Settles O13: both digests answer from the same Finalize. -/
theorem digest64IsLowWordOfDigest128 : Obligations.Digest64IsLowWordOfDigest128 := by
  refine ⟨fun s t h => ?_, fun s t h => ?_⟩
  · obtain ⟨⟨w0, w1⟩, hw, rfl⟩ := execDigest128_eq_next.1 h
    exact ⟨w0, w1, rfl, (exec_digests_of_finalize hw).2⟩
  · obtain ⟨⟨w0, w1⟩, hw, -⟩ := execDigest64_eq_next.1 h
    exact ⟨_, (exec_digests_of_finalize hw).1⟩

/-- Settles O14: a digest only emits, and a response emitted changes nothing of what a command does. -/
theorem digestsArePeeks : Obligations.DigestsArePeeks := by
  intro d hd s t h
  obtain ⟨r, hok, rfl⟩ := exec_digest_emits hd h
  obtain ⟨q, hq, hagain⟩ := exec_emit h r
  obtain rfl : r = q := by simpa using hq
  exact ⟨r, rfl, hok, hagain, fun i u hi => exec_emit hi r⟩

end

section
/-! PROOFS. Digests behind any APPENDs (spec/40_streaming_commands.md R94, R97). APPENDs from any state are a stream once
TOTAL_LENGTH is set apart: it counts them, and what they hash does not depend on it. -/

namespace Sys2Proof.Machine

theorem addToTotal_addToTotal (total : BitVec 64) (m n : Nat) :
    addToTotal (addToTotal total m) n = addToTotal total (m + n) := by
  apply BitVec.eq_of_toNat_eq
  simp only [addToTotal_toNat, Config.totalMax]
  omega

/-- APPENDs from another TOTAL_LENGTH go on counting from there, and are the same otherwise (R85). -/
theorem runCommands_append_setTotalLength {pieces : List (List Byte)} {s t : State} (total : BitVec 64)
    (h : runCommands (pieces.map Instr.append) s = .next t) :
    runCommands (pieces.map Instr.append) (s.setTotalLength total) =
      .next (t.setTotalLength (addToTotal total pieces.flatten.length)) := by
  induction pieces generalizing s total with
  | nil =>
    obtain rfl := Host.Outcome.next.inj h
    simp [runCommands]
  | cons piece pieces ih =>
    rw [List.map_cons, runCommands] at h ⊢
    cases hexec : exec (.append piece) s <;> rw [hexec] at h
    case next u =>
      have hset : exec (.append piece) (s.setTotalLength total) =
          .next (u.setTotalLength (addToTotal total piece.length)) := by
        have hset := execAppend_of_hashed_eq (s := s) (t := s.setTotalLength total) rfl rfl rfl hexec
        rwa [State.setTotalLength_input, ← execAppend_input hexec, State.setTotalLength_output,
          ← execAppend_output hexec] at hset
      rw [hset, List.flatten_cons, List.length_append, ← addToTotal_addToTotal]
      exact ih _ h
    all_goals nomatch h

/-- APPENDs to a state that holds `bytes` complete; but for TOTAL_LENGTH they are a stream that began with `bytes`. -/
theorem State.Holds.run {s : State} {bytes : List Byte} (h : s.Holds bytes) (pieces : List (List Byte)) :
    ∃ (n : Nat) (t : State), runCommands (pieces.map Instr.append) s =
        .next (t.setTotalLength (addToTotal s.totalLength pieces.flatten.length)) ∧
      t.Streamed s.state (bytes ++ pieces.flatten) n := by
  have hlt := h.length_lt
  have hstart : (s.setTotalLength (BitVec.ofNat 64 bytes.length)).Streamed s.state bytes 0 :=
    ⟨Nat.zero_le _, rfl, h.congr rfl rfl, by simp only [State.setTotalLength_totalLength, BitVec.toNat_ofNat]; omega,
      fun _ => rfl⟩
  obtain ⟨n, t, ht, hstream⟩ := hstart.run pieces
  have hrun := runCommands_append_setTotalLength s.totalLength ht
  exact ⟨n, t, hrun, hstream⟩

/-- Behind a stream Finalize depends on the stream and the count only, not on how many blocks are mixed already. -/
theorem finalize_setTotalLength_of_streamed {h0 : Words12} {X : List Byte} {n : Nat} {t : State}
    (h : t.Streamed h0 X n) {total : BitVec 64} (hshort : total.toNat < 192 → X.length < 192) :
    finalize (t.setTotalLength total) = if total.toNat < 192 then short X h0[0] h0[1]
      else finishLong (X.drop (96 * (X.length / 96))) (mixFold (X.length / 96) X h0) := by
  obtain ⟨hle, hstate, hholds, -, hnone⟩ := h
  have hholds' : (t.setTotalLength total).Holds (X.drop (96 * n)) := hholds.congr rfl rfl
  rw [finalize_of_holds hholds', State.setTotalLength_totalLength, State.setTotalLength_state, hstate]
  split
  · next hlt =>
    obtain rfl := hnone (hshort hlt)
    rfl
  · have hblocks : n + (X.drop (96 * n)).length / 96 = X.length / 96 := by rw [List.length_drop]; omega
    rw [← mixFold_add, List.drop_drop, ← Nat.mul_add, hblocks]

/-- Behind a stream from the seeded pattern both digests answer the digest of the stream. -/
theorem State.Streamed.exec_digests {seed1 seed2 : Word} {X : List Byte} {n : Nat} {t : State}
    (h : t.Streamed (seeded seed1 seed2) X n) : ∃ w0 w1, digestOf seed1 seed2 X = .ok (w0, w1) ∧
      exec .digest128 t = .next { t with output := t.output ++ [⟨.ok, w0, w1⟩] } ∧
      exec .digest64 t = .next { t with output := t.output ++ [⟨.ok, w0, 0⟩] } := by
  obtain ⟨⟨w0, w1⟩, hw⟩ := digestOf_total seed1 seed2 X
  exact ⟨w0, w1, hw, exec_digests_of_finalize (h.finalize_eq.trans hw)⟩

end Sys2Proof.Machine

open Sys2Proof Sys2Proof.Machine

/-- Settles O22: INIT, and reset, begin a stream from the seeded pattern, which the APPENDs continue. -/
theorem digestIsFunctionOfSeedsAndStream : Obligations.DigestIsFunctionOfSeedsAndStream := by
  refine ⟨fun s seed1 seed2 pieces => ?_, fun pieces => ?_⟩
  · obtain ⟨n, t, ht, hstream⟩ := runCommands_init_streamed seed1 seed2 pieces s
    obtain ⟨w0, w1, hanswers⟩ := hstream.exec_digests
    exact ⟨t, w0, w1, ht, hanswers⟩
  · have hstart : State.reset.Streamed (seeded 0 0) [] 0 := streamed_nil (t := State.reset) rfl rfl
    obtain ⟨n, t, ht, hstream⟩ := hstart.run pieces
    obtain ⟨w0, w1, hanswers⟩ := hstream.exec_digests
    exact ⟨t, w0, w1, ht, hanswers⟩

/-- Settles O23: both runs are streams of the same bytes with the same count, and Finalize depends on no more. -/
theorem chunkInvariance : Obligations.ChunkInvariance := by
  intro s xs ys hinv hflat
  obtain ⟨bytes, hs⟩ := hinv.exists_holds
  obtain ⟨n, t, ht, htstream⟩ := hs.run xs
  obtain ⟨m, u, hu, hustream⟩ := hs.run ys
  rw [← hflat] at hu hustream
  set total := addToTotal s.totalLength xs.flatten.length with htotal
  have hshort : total.toNat < 192 → (bytes ++ xs.flatten).length < 192 := by
    intro hlt
    rw [htotal, addToTotal_toNat] at hlt
    simp only [Config.totalMax] at hlt
    have hall := hinv.shortBuffered (show s.totalLength.toNat < 192 by omega)
    rw [hs.bufferedLength_eq] at hall
    rw [List.length_append]
    omega
  obtain ⟨⟨w0, w1⟩, hw⟩ := finalize_total_of_holds (htstream.holds.congr (t := t.setTotalLength total) rfl rfl)
  have hw' : finalize (u.setTotalLength total) = .ok (w0, w1) := by
    rw [← hw, finalize_setTotalLength_of_streamed htstream hshort,
      finalize_setTotalLength_of_streamed hustream hshort]
  obtain ⟨ht128, ht64⟩ := exec_digests_of_finalize hw
  obtain ⟨hu128, hu64⟩ := exec_digests_of_finalize hw'
  exact ⟨_, _, w0, w1, ht, hu, ht128, hu128, ht64, hu64⟩

end

section
/-! PROOFS. The words of a network: a write read back, overwritten and undone. -/

namespace Sys2Proof.Machine

/-! ### Writes of one word -/

section writes

variable {n : Nat} (v : Vector Word n) {i j : Fin n} (x y z : Word)

@[simp] theorem getElem_put_self (i : Fin n) : (put v i x)[i] = x := by simp [put]

theorem getElem_put_of_ne (h : i ≠ j) : (put v i x)[j] = v[j] := by
  simp [put, Vector.getElem_set_ne, Fin.val_ne_of_ne h]

@[simp] theorem put_getElem (i : Fin n) : put v i v[i] = v := by simp [put]

@[simp] theorem put_put (i : Fin n) : put (put v i x) i y = put v i y := by simp [put]

theorem put_put_put_of_ne (h : i ≠ j) : put (put (put v i x) j y) i z = put (put v j y) i z := by
  simp [put, Vector.set_comm x y (Fin.val_ne_of_ne h)]

end writes

theorem words12_eta (s : Words12) :
    #v[s[0], s[1], s[2], s[3], s[4], s[5], s[6], s[7], s[8], s[9], s[10], s[11]] = s := by
  ext i hi
  interval_cases i <;> rfl

theorem words4_eta (h : Words4) : #v[h[0], h[1], h[2], h[3]] = h := by
  ext i hi
  interval_cases i <;> rfl

/-! ### Statements and their inverses -/

/-- The statement that applies `f` to word `i`. -/
def mapWord {n : Nat} (f : Word → Word) (i : Fin n) (v : Vector Word n) : Vector Word n := put v i (f v[i])

/-- The statement that changes word `i`, with word `j` as the other operand. -/
def combineWords {n : Nat} (op : Word → Word → Word) (i j : Fin n) (v : Vector Word n) : Vector Word n :=
  put v i (op v[i] v[j])

theorem mapWord_cancel {n : Nat} {f g : Word → Word} (hfg : ∀ x, g (f x) = x) (i : Fin n) (v : Vector Word n) :
    mapWord g i (mapWord f i v) = v := by
  simp only [mapWord, getElem_put_self, put_put, hfg, put_getElem]

/-- The other operand is a different word, which the statement leaves as it was (R104). -/
theorem combineWords_cancel {n : Nat} {op op' : Word → Word → Word} (hop : ∀ x y, op' (op x y) y = x) {i j : Fin n}
    (hij : i ≠ j) (v : Vector Word n) : combineWords op' i j (combineWords op i j v) = v := by
  simp only [combineWords, getElem_put_self, getElem_put_of_ne v _ hij, put_put, hop, put_getElem]

theorem rotl64_sub_rotl64 (x : Word) {k : Nat} (hk : 0 < k ∧ k < 64) : rotl64 (rotl64 x k) (64 - k) = x :=
  rotl64_rotl64_cancel x hk.2 (by omega) (by omega)

theorem rotl64_rotl64_sub (x : Word) {k : Nat} (hk : 0 < k ∧ k < 64) : rotl64 (rotl64 x (64 - k)) k = x :=
  rotl64_rotl64_cancel x (by omega) hk.2 (by omega)

/-- Steps undone one by one, the last one first. -/
theorem foldl_reverse_foldl_cancel {α σ : Type} {f g : σ → α → σ} (h : ∀ s a, g (f s a) a = s) (l : List α) (s : σ) :
    l.reverse.foldl g (l.foldl f s) = s := by
  induction l generalizing s with
  | nil => rfl
  | cons a l ih =>
    rw [List.foldl_cons, List.reverse_cons, List.foldl_append, ih]
    exact h s a

end Sys2Proof.Machine

end

section
/-! PROOFS. The four networks line by line (spec/41_block_mixer.md R102, spec/42_finalizer.md R111,
spec/43_short_path.md R122, R125). A step writes the words of its line and no others; the unrolled form is the fold
of the steps with each index put in. -/

namespace Sys2Proof.Machine

theorem mixStep_eq_mixLine (d s : Words12) (i : Fin 12) :
    mixStep d s i =
      let line := mixLine d[i] s[i + 11] s[i] s[i + 1] s[i + 2] s[i + 10] mixRot[i]
      put (put (put s (i + 2) line.2.2) i line.2.1) (i + 11) line.1 := by
  simp [-Fin.getElem_fin, mixStep, mixLine, getElem_put_of_ne, put_put_put_of_ne]

theorem endPartialStep_eq_endLine (h : Words12) (i : Fin 12) :
    endPartialStep h i =
      let line := endLine h[i + 11] h[i + 1] h[i + 2] endRot[i]
      put (put (put h (i + 11) line.1) (i + 2) line.2.2) (i + 1) line.2.1 := by
  simp [-Fin.getElem_fin, endPartialStep, endLine, getElem_put_of_ne]

theorem shortMixStep_eq_shortMixLine (h : Words4) (i : Fin 4) (k : Nat) :
    shortMixStep h (i, k) =
      let line := shortMixLine h[i + 2] h[i + 3] h[i] k
      put (put h (i + 2) line.1) i line.2 := by
  simp [-Fin.getElem_fin, shortMixStep, shortMixLine, getElem_put_of_ne]

theorem shortEndStep_eq_shortEndLine (h : Words4) (i : Fin 4) (k : Nat) :
    shortEndStep h (i, k) =
      let line := shortEndLine h[i + 3] h[i + 2] k
      put (put h (i + 2) line.2) (i + 3) line.1 := by
  simp [-Fin.getElem_fin, shortEndStep, shortEndLine, getElem_put_of_ne, put_put_put_of_ne]

theorem mix_eq_mixUnrolled (d s : Words12) : mix d s = mixUnrolled d s := by
  conv_lhs => rw [← words12_eta s]
  simp [mix, steps12, mixStep_eq_mixLine, mixRot, put, mixUnrolled]

theorem endPartial_eq_endPartialUnrolled (h : Words12) : endPartial h = endPartialUnrolled h := by
  conv_lhs => rw [← words12_eta h]
  simp [endPartial, steps12, endPartialStep_eq_endLine, endRot, put, endPartialUnrolled]

theorem shortMix_eq_shortMixUnrolled (h : Words4) : shortMix h = shortMixUnrolled h := by
  conv_lhs => rw [← words4_eta h]
  simp [shortMix, shortMixSteps, shortMixStep_eq_shortMixLine, put, shortMixUnrolled]

theorem shortEnd_eq_shortEndUnrolled (h : Words4) : shortEnd h = shortEndUnrolled h := by
  conv_lhs => rw [← words4_eta h]
  simp [shortEnd, shortEndSteps, shortEndStep_eq_shortEndLine, put, shortEndUnrolled]

end Sys2Proof.Machine

open Sys2Proof Sys2Proof.Machine

/-- Settles O26: each step of a network is its line, at every index. -/
theorem networksEqualUnrolledForms : Obligations.NetworksEqualUnrolledForms :=
  ⟨mix_eq_mixUnrolled, endPartial_eq_endPartialUnrolled, shortMix_eq_shortMixUnrolled, shortEnd_eq_shortEndUnrolled⟩

end

section
/-! PROOFS. The inverse of MIX (spec/41_block_mixer.md R104), statement by statement. -/

namespace Sys2Proof.Machine

theorem mixStep_eq_statements (d s : Words12) (i : Fin 12) :
    mixStep d s i = (s |> mapWord (· + d[i]) i |> combineWords (· ^^^ ·) (i + 2) (i + 10)
      |> combineWords (· ^^^ ·) (i + 11) i |> mapWord (rotl64 · mixRot[i]) i
      |> combineWords (· + ·) (i + 11) (i + 1)) := rfl

theorem unmixStep_eq_statements (d s : Words12) (i : Fin 12) :
    unmixStep d s i = (s |> combineWords (· - ·) (i + 11) (i + 1) |> mapWord (rotl64 · (64 - mixRot[i])) i
      |> combineWords (· ^^^ ·) (i + 11) i |> combineWords (· ^^^ ·) (i + 2) (i + 10)
      |> mapWord (· - d[i]) i) := rfl

theorem mixRot_pos_and_lt : ∀ i : Fin 12, 0 < mixRot[i] ∧ mixRot[i] < 64 := by decide

theorem unmixStep_mixStep (d s : Words12) (i : Fin 12) : unmixStep d (mixStep d s i) i = s := by
  rw [unmixStep_eq_statements, mixStep_eq_statements,
    combineWords_cancel BitVec.add_sub_cancel (by simp),
    mapWord_cancel fun x => rotl64_sub_rotl64 x (mixRot_pos_and_lt i),
    combineWords_cancel xor_cancel_right (by simp),
    combineWords_cancel xor_cancel_right (by simp),
    mapWord_cancel fun x => BitVec.add_sub_cancel x d[i]]

theorem mixStep_unmixStep (d s : Words12) (i : Fin 12) : mixStep d (unmixStep d s i) i = s := by
  rw [mixStep_eq_statements, unmixStep_eq_statements,
    mapWord_cancel fun x => BitVec.sub_add_cancel x d[i],
    combineWords_cancel xor_cancel_right (by simp),
    combineWords_cancel xor_cancel_right (by simp),
    mapWord_cancel fun x => rotl64_rotl64_sub x (mixRot_pos_and_lt i),
    combineWords_cancel BitVec.sub_add_cancel (by simp)]

end Sys2Proof.Machine

open Sys2Proof Sys2Proof.Machine

/-- Settles O27: a step and its inverse undo each other, so the steps taken back in reverse order do. -/
theorem mixIsInvertible : Obligations.MixIsInvertible := fun d s =>
  ⟨foldl_reverse_foldl_cancel (unmixStep_mixStep d) steps12 s,
    foldl_reverse_foldl_cancel (mixStep_unmixStep d) steps12.reverse s⟩

end

section
/-! PROOFS. The finalization networks are bijections (spec/42_finalizer.md R114, spec/43_short_path.md R123, R124): each
step is a composition of statements, and each statement can be undone. -/

namespace Sys2Proof.Machine

open Function

theorem rotl64_bijective (k : Nat) : Bijective (rotl64 · k) := by
  have hk : k % 64 < 64 := Nat.mod_lt k (by decide)
  have hmod : (rotl64 · k) = (rotl64 · (k % 64)) := funext fun x => BitVec.rotateLeft_mod_eq_rotateLeft.symm
  rw [hmod, bijective_iff_has_inverse]
  exact ⟨(rotr64 · (k % 64)), fun x => rotr64_rotl64 x hk, fun x => rotl64_rotr64 x hk⟩

/-! ### Statements, and sequences of steps -/

section statements

variable {n : Nat} {i j : Fin n}

theorem mapWord_bijective {f : Word → Word} (hf : Bijective f) (i : Fin n) : Bijective (mapWord f i) := by
  obtain ⟨g, hgf, hfg⟩ := bijective_iff_has_inverse.1 hf
  exact bijective_iff_has_inverse.2 ⟨mapWord g i, mapWord_cancel hgf i, mapWord_cancel hfg i⟩

theorem combineWords_bijective {op op' : Word → Word → Word} (hop : ∀ x y, op' (op x y) y = x)
    (hop' : ∀ x y, op (op' x y) y = x) (hij : i ≠ j) : Bijective (combineWords op i j) :=
  bijective_iff_has_inverse.2 ⟨combineWords op' i j, combineWords_cancel hop hij, combineWords_cancel hop' hij⟩

theorem addWord_bijective (hij : i ≠ j) : Bijective (combineWords (· + ·) i j) :=
  combineWords_bijective BitVec.add_sub_cancel BitVec.sub_add_cancel hij

theorem xorWord_bijective (hij : i ≠ j) : Bijective (combineWords (· ^^^ ·) i j) :=
  combineWords_bijective xor_cancel_right xor_cancel_right hij

end statements

theorem foldl_bijective {α σ : Type} {f : σ → α → σ} (h : ∀ a, Bijective (f · a)) (l : List α) :
    Bijective (l.foldl f) := by
  induction l with
  | nil => exact bijective_id
  | cons a l ih => exact ih.comp (h a)

/-! ### The steps of the three networks -/

theorem endPartialStep_eq_statements (h : Words12) (i : Fin 12) :
    endPartialStep h i = (h |> combineWords (· + ·) (i + 11) (i + 1) |> combineWords (· ^^^ ·) (i + 2) (i + 11)
      |> mapWord (rotl64 · endRot[i]) (i + 1)) := rfl

theorem shortMixStep_eq_statements (h : Words4) (i : Fin 4) (k : Nat) :
    shortMixStep h (i, k) = (h |> mapWord (rotl64 · k) (i + 2) |> combineWords (· + ·) (i + 2) (i + 3)
      |> combineWords (· ^^^ ·) i (i + 2)) := rfl

theorem shortEndStep_eq_statements (h : Words4) (i : Fin 4) (k : Nat) :
    shortEndStep h (i, k) = (h |> combineWords (· ^^^ ·) (i + 3) (i + 2) |> mapWord (rotl64 · k) (i + 2)
      |> combineWords (· + ·) (i + 3) (i + 2)) := rfl

theorem endPartialStep_bijective (i : Fin 12) : Bijective (endPartialStep · i) := by
  simp only [endPartialStep_eq_statements]
  exact (mapWord_bijective (rotl64_bijective _) _).comp
    ((xorWord_bijective (by simp)).comp (addWord_bijective (by simp)))

theorem shortMixStep_bijective (step : Fin 4 × Nat) : Bijective (shortMixStep · step) := by
  obtain ⟨i, k⟩ := step
  simp only [shortMixStep_eq_statements]
  exact (xorWord_bijective (by simp)).comp
    ((addWord_bijective (by simp)).comp (mapWord_bijective (rotl64_bijective k) _))

theorem shortEndStep_bijective (step : Fin 4 × Nat) : Bijective (shortEndStep · step) := by
  obtain ⟨i, k⟩ := step
  simp only [shortEndStep_eq_statements]
  exact (addWord_bijective (by simp)).comp
    ((mapWord_bijective (rotl64_bijective k) _).comp (xorWord_bijective (by simp)))

/-! ### The fold of END (R112) -/

theorem getElem_foldBlock (d h : Words12) (i : Fin 12) : (foldBlock d h)[i] = h[i] + d[i] := by simp [foldBlock]

end Sys2Proof.Machine

open Sys2Proof Sys2Proof.Machine

/-- Settles O28: each network is a fold of bijective steps. -/
theorem finalNetworksAreBijections : Obligations.FinalNetworksAreBijections :=
  ⟨foldl_bijective endPartialStep_bijective steps12, foldl_bijective shortMixStep_bijective shortMixSteps,
    foldl_bijective shortEndStep_bijective shortEndSteps⟩

/-- Settles O29: the words before the three passes are those of `foldBlock`. -/
theorem endAddsBlockThenThreePasses : Obligations.EndAddsBlockThenThreePasses := fun d h =>
  ⟨foldBlock d h, getElem_foldBlock d h, rfl⟩

end

section
/-! PROOFS. The tail table of R129 as two little-endian words (spec/43_short_path.md R130): a row adds its first `m`
bytes to c and `n` bytes from offset 8 on to d, and the next row adds one byte more to one of them. -/

namespace Sys2Proof

/-! ### A sequence of bytes as a word, cut in two (R13) -/

theorem leNat_append (xs ys : List Byte) : leNat (xs ++ ys) = leNat xs + 256 ^ xs.length * leNat ys := by
  induction xs with
  | nil => simp [leNat]
  | cons x xs ih => rw [List.cons_append, leNat, leNat, ih, List.length_cons]; ring

@[simp] theorem le_nil : le [] = 0 := rfl

theorem le_singleton (b : Byte) : le [b] = b.setWidth 64 := by
  rw [le, leNat, leNat, Nat.mul_zero, Nat.add_zero, BitVec.ofNat_toNat]

theorem le_append (xs ys : List Byte) : le (xs ++ ys) = le xs + le ys <<< (8 * xs.length) := by
  apply BitVec.eq_of_toNat_eq
  have hpow : 2 ^ (8 * xs.length) = 256 ^ xs.length := pow_mul 2 8 _
  simp [le, leNat_append, Nat.shiftLeft_eq, hpow, Nat.mul_comm]

theorem le_take_succ {t : List Byte} {j : Nat} (hj : j < t.length) :
    le (t.take (j + 1)) = le (t.take j) + t[j].setWidth 64 <<< (8 * j) := by
  rw [List.take_succ_eq_append_getElem hj, le_append, le_singleton, List.length_take_of_le hj.le]

end Sys2Proof

namespace Sys2Proof.Machine

/-! ### Additions to c and d -/

/-- `x` added to c and `y` to d: what the half chunk, the tail and the zero remainder do (R127, R130, R131). -/
def addCD (h : Words4) (x y : Word) : Words4 := #v[h[0], h[1], h[2] + x, h[3] + y]

theorem addTo_two_addTo_three (h : Words4) (x y : Word) : addTo (addTo h 2 x) 3 y = addCD h x y := by
  rw [← words4_eta h]; rfl

theorem addTo_three_addTo_two (h : Words4) (x y : Word) : addTo (addTo h 3 y) 2 x = addCD h x y := by
  rw [← words4_eta h]; rfl

theorem addTo_two_eq_addCD (h : Words4) (x : Word) : addTo h 2 x = addCD h x 0 := by
  rw [← words4_eta h]; simp [addTo, put, addCD]

theorem addCD_zero (h : Words4) : addCD h 0 0 = h := by simp [addCD, words4_eta]

theorem addCD_addTo_two (h : Words4) (w x y : Word) : addCD (addTo h 2 w) x y = addCD h (x + w) y := by
  simp [addCD, addTo, put, BitVec.add_assoc, BitVec.add_comm w]

theorem addCD_addTo_three (h : Words4) (w x y : Word) : addCD (addTo h 3 w) x y = addCD h x (y + w) := by
  simp [addCD, addTo, put, BitVec.add_assoc, BitVec.add_comm w]

/-! ### The rows -/

/-- What a row does to a tail that is long enough for it: bytes 0 to m - 1 are added to c and bytes 8 to 8 + n - 1
to d. -/
def RowAdds (row : List Byte → Words4 → Except Fault Words4) (m n : Nat) : Prop :=
  ∀ t h, m + n ≤ t.length → row t h = .ok (addCD h (le (t.take m)) (le ((t.drop 8).take n)))

theorem rowAdds_nothing : RowAdds (fun _ h => .ok h) 0 0 := fun t h _ => by
  rw [List.take_zero, List.take_zero, le_nil, addCD_zero]

/-- A statement that adds byte `m` to c, before a row that adds the bytes before it. -/
theorem RowAdds.succ_low {row : List Byte → Words4 → Except Fault Words4} {m n : Nat} (hrow : RowAdds row m n) :
    RowAdds (fun t h => do row t (addTo h 2 (← shiftedByteAt t m (8 * m)))) (m + 1) n := by
  intro t h ht
  have hm : m < t.length := by omega
  have hbefore : m + n ≤ t.length := by omega
  beta_reduce
  rw [shiftedByteAt_ok hm, bind_ok, hrow t _ hbefore, addCD_addTo_two, le_take_succ hm]

/-- A statement that adds byte 8 + n to d, before a row that adds the bytes before it. -/
theorem RowAdds.succ_high {row : List Byte → Words4 → Except Fault Words4} {n : Nat} (hrow : RowAdds row 8 n) :
    RowAdds (fun t h => do row t (addTo h 3 (← shiftedByteAt t (8 + n) (8 * n)))) 8 (n + 1) := by
  intro t h ht
  have hn : 8 + n < t.length := by omega
  have hn' : n < (t.drop 8).length := by rw [List.length_drop]; omega
  beta_reduce
  rw [shiftedByteAt_ok hn, bind_ok, hrow t _ hn.le, addCD_addTo_three, le_take_succ hn', List.getElem_drop]

theorem rowAdds_tailRow1 : RowAdds tailRow1 1 0 := rowAdds_nothing.succ_low
theorem rowAdds_tailRow2 : RowAdds tailRow2 2 0 := rowAdds_tailRow1.succ_low
theorem rowAdds_tailRow3 : RowAdds tailRow3 3 0 := rowAdds_tailRow2.succ_low

/-! The rows for 4, 8 and 12 bytes continue with no other row: they read whole groups. -/

theorem rowAdds_tailRow4 : RowAdds tailRow4 4 0 := by
  intro t h ht
  rw [tailRow4, le32At_ok (by omega), bind_ok, pure_eq_ok, addTo_two_eq_addCD, List.drop_zero, List.take_zero, le_nil]

theorem rowAdds_tailRow5 : RowAdds tailRow5 5 0 := rowAdds_tailRow4.succ_low
theorem rowAdds_tailRow6 : RowAdds tailRow6 6 0 := rowAdds_tailRow5.succ_low
theorem rowAdds_tailRow7 : RowAdds tailRow7 7 0 := rowAdds_tailRow6.succ_low

theorem rowAdds_tailRow8 : RowAdds tailRow8 8 0 := by
  intro t h ht
  rw [tailRow8, le64At_ok (by omega), bind_ok, pure_eq_ok, addTo_two_eq_addCD, List.drop_zero, List.take_zero, le_nil]

theorem rowAdds_tailRow9 : RowAdds tailRow9 8 1 := rowAdds_tailRow8.succ_high
theorem rowAdds_tailRow10 : RowAdds tailRow10 8 2 := rowAdds_tailRow9.succ_high
theorem rowAdds_tailRow11 : RowAdds tailRow11 8 3 := rowAdds_tailRow10.succ_high

theorem rowAdds_tailRow12 : RowAdds tailRow12 8 4 := by
  intro t h ht
  rw [tailRow12, le32At_ok (by omega), bind_ok, le64At_ok (by omega), bind_ok, pure_eq_ok, addTo_three_addTo_two,
    List.drop_zero]

theorem rowAdds_tailRow13 : RowAdds tailRow13 8 5 := rowAdds_tailRow12.succ_high
theorem rowAdds_tailRow14 : RowAdds tailRow14 8 6 := rowAdds_tailRow13.succ_high
theorem rowAdds_tailRow15 : RowAdds tailRow15 8 7 := rowAdds_tailRow14.succ_high

/-! ### The table -/

/-- The bytes of a row are all the bytes of a tail of its length. -/
theorem RowAdds.of_length {row : List Byte → Words4 → Except Fault Words4} {m n : Nat} (hrow : RowAdds row m n)
    {t : List Byte} (ht : t.length = m + n) (hmn : m = 8 ∨ m < 8 ∧ n = 0) (h : Words4) :
    row t h = .ok (addCD h (le (t.take 8)) (le (t.drop 8))) := by
  have hlow : t.take m = t.take 8 := by
    obtain rfl | ⟨hm, rfl⟩ := hmn
    · rfl
    · rw [List.take_of_length_le (by omega), List.take_of_length_le (by omega)]
  have hhigh : (t.drop 8).take n = t.drop 8 := List.take_of_length_le (by rw [List.length_drop]; omega)
  rw [hrow t h ht.ge, hlow, hhigh]

/-- The tail fold over 1 to 15 bytes adds the first eight to c and the rest to d (R130). -/
theorem shortTail_of_pos {t : List Byte} (h : Words4) (hpos : 1 ≤ t.length) (hle : t.length ≤ 15) :
    shortTail t h = .ok (addCD h (le (t.take 8)) (le (t.drop 8))) := by
  obtain ⟨n, hn⟩ : ∃ n, t.length = n := ⟨_, rfl⟩
  rw [hn] at hpos hle
  interval_cases n <;> simp only [shortTail, hn]
  · exact rowAdds_tailRow1.of_length hn (by decide) h
  · exact rowAdds_tailRow2.of_length hn (by decide) h
  · exact rowAdds_tailRow3.of_length hn (by decide) h
  · exact rowAdds_tailRow4.of_length hn (by decide) h
  · exact rowAdds_tailRow5.of_length hn (by decide) h
  · exact rowAdds_tailRow6.of_length hn (by decide) h
  · exact rowAdds_tailRow7.of_length hn (by decide) h
  · exact rowAdds_tailRow8.of_length hn (by decide) h
  · exact rowAdds_tailRow9.of_length hn (by decide) h
  · exact rowAdds_tailRow10.of_length hn (by decide) h
  · exact rowAdds_tailRow11.of_length hn (by decide) h
  · exact rowAdds_tailRow12.of_length hn (by decide) h
  · exact rowAdds_tailRow13.of_length hn (by decide) h
  · exact rowAdds_tailRow14.of_length hn (by decide) h
  · exact rowAdds_tailRow15.of_length hn (by decide) h

end Sys2Proof.Machine

open Sys2Proof Sys2Proof.Machine

/-- Settles O30: each row adds one byte more than the row it continues with. -/
theorem tailTableIsTwoLittleEndianWords : Obligations.TailTableIsTwoLittleEndianWords :=
  fun _ _ _ _ _ hpos hle => shortTail_of_pos _ hpos hle

end

section
/-! PROOFS. SHORT phase by phase (spec/43_short_path.md R126 to R132), each checked phase as the words it adds. -/

namespace Sys2Proof.Machine

/-- The word of the eight bytes at offset `p` (R13). -/
def wordAt (msg : List Byte) (p : Nat) : Word := le ((msg.drop p).take 8)

/-- The words at `p` and `p + 8` added to c and d, then SHORT_MIX: the half chunk, and the first half of a chunk
(R127). -/
def absorbHalf (msg : List Byte) (p : Nat) (h : Words4) : Words4 :=
  shortMix (addCD h (wordAt msg p) (wordAt msg (p + 8)))

/-- A chunk at offset `p`: the first half, then the words at `p + 16` and `p + 24` added to a and b (R127). -/
def absorbChunk (msg : List Byte) (p : Nat) (h : Words4) : Words4 :=
  let g := absorbHalf msg p h
  #v[g[0] + wordAt msg (p + 16), g[1] + wordAt msg (p + 24), g[2], g[3]]

/-- The words that the chunks leave, and the half chunk if 16 or more bytes are left (R126, R127). -/
def absorbWhole (msg : List Byte) (seed1 seed2 : Word) : Words4 :=
  let n := msg.length / 32
  let chunked := (List.range n).foldl (fun h k => absorbChunk msg (32 * k) h) (shortSeed seed1 seed2)
  if 16 ≤ msg.length % 32 then absorbHalf msg (32 * n) chunked else chunked

/-- The tail fold: the constant to c and d if no byte is left, else the bytes as two words (R130, R131). -/
def addTail (t : List Byte) (h : Words4) : Words4 :=
  if t = [] then addCD h scConst scConst else addCD h (le (t.take 8)) (le (t.drop 8))

theorem addTo_zero_addTo_one (g : Words4) (x y : Word) :
    addTo (addTo g 0 x) 1 y = #v[g[0] + x, g[1] + y, g[2], g[3]] := by
  rw [← words4_eta g]; rfl

theorem addCD_shortLength (len : Nat) (h : Words4) (x y : Word) :
    addCD (shortLength len h) x y = #v[h[0], h[1], h[2] + x, h[3] + (BitVec.ofNat 64 len <<< 56) + y] := by
  simp [shortLength, addCD, addTo, put]

theorem shortAbsorb16_eq_absorbHalf {msg : List Byte} {p : Nat} (h : Words4) (hp : p + 16 ≤ msg.length) :
    shortAbsorb16 msg p h = .ok (absorbHalf msg p h) := by
  rw [shortAbsorb16_ok h hp, addTo_two_addTo_three]; rfl

/-- Chunks that are there are absorbed in order (R127). -/
theorem shortChunks_eq_foldl {msg : List Byte} {n p : Nat} (h : Words4) (hp : p + 32 * n ≤ msg.length) :
    shortChunks msg n p h = .ok ((List.range n).foldl (fun h k => absorbChunk msg (p + 32 * k) h) h) := by
  induction n generalizing p h with
  | zero => rfl
  | succ n ih =>
    have hthird : p + 16 + 8 ≤ msg.length := by omega
    have hlast : p + 24 + 8 ≤ msg.length := by omega
    have hrest : p + 32 + 32 * n ≤ msg.length := by omega
    have hnext (k : Nat) : p + 32 * (k + 1) = p + 32 + 32 * k := by omega
    rw [shortChunks, shortAbsorb16_eq_absorbHalf h (by omega), bind_ok, le64At_ok hthird, bind_ok, le64At_ok hlast,
      bind_ok, ih _ hrest, addTo_zero_addTo_one, List.range_succ_eq_map, List.foldl_cons, List.foldl_map]
    simp only [hnext]
    rfl

theorem shortTail_eq_addTail {t : List Byte} (h : Words4) (ht : t.length ≤ 15) : shortTail t h = .ok (addTail t h) := by
  cases t with
  | nil => rw [addTail, if_pos rfl, ← addTo_two_addTo_three]; rfl
  | cons b bs => rw [addTail, if_neg (List.cons_ne_nil b bs), shortTail_of_pos h (Nat.le_add_left 1 _) ht]

/-- The tail of a message is what follows its last group of 16 bytes (R127). -/
theorem sliceAt_tail {msg : List Byte} {p r : Nat} (hp : p = 16 * (msg.length / 16)) (hr : p + r = msg.length) :
    sliceAt msg p r = .ok (msg.drop (16 * (msg.length / 16))) := by
  rw [sliceAt_ok hr.le, ← hp, List.take_of_length_le (by rw [List.length_drop]; omega)]

/-- The phases before SHORT_END (R126 to R131). -/
theorem shortFold_eq (msg : List Byte) (seed1 seed2 : Word) :
    shortFold msg seed1 seed2 = .ok (addTail (msg.drop (16 * (msg.length / 16)))
      (shortLength msg.length (absorbWhole msg seed1 seed2))) := by
  have hchunks := shortChunks_eq_foldl (msg := msg) (n := msg.length / 32) (p := 0) (shortSeed seed1 seed2) (by omega)
  have htail : (msg.drop (16 * (msg.length / 16))).length ≤ 15 := by rw [List.length_drop]; omega
  simp only [Nat.zero_add] at hchunks
  simp only [shortFold, Config.shortChunk, hchunks, bind_ok, absorbWhole]
  split
  · next hhalf =>
    rw [shortAbsorb16_eq_absorbHalf _ (by omega), bind_ok, sliceAt_tail (by omega) (by omega), bind_ok,
      shortTail_eq_addTail _ htail]
  · next hhalf => rw [sliceAt_tail (by omega) (by omega), bind_ok, shortTail_eq_addTail _ htail]

end Sys2Proof.Machine

open Sys2Proof Sys2Proof.Machine

/-- Settles O51: the phases of `shortFold`, with the length fold and the tail fold put into one. -/
theorem shortOfEveryMessage : Obligations.ShortOfEveryMessage := by
  intro msg seed1 seed2 C word absorb chunk n chunked h d tail g
  have hend : shortEnd (addTail tail (shortLength msg.length h)) = g := by
    rw [addTail, addCD_shortLength, addCD_shortLength]
    exact apply_ite shortEnd _ _ _
  rw [short, shortFold_eq, bind_ok, pure_eq_ok]
  exact congrArg (fun g : Words4 => Except.ok (g[0], g[1])) hend

/-- Settles O31: no chunk and no half chunk, and the tail is the message. -/
theorem shortOfAtMostFifteenBytes : Obligations.ShortOfAtMostFifteenBytes := by
  intro msg seed1 seed2 hlen C d h
  have hshort := shortOfEveryMessage msg seed1 seed2
  have hchunks : msg.length / 32 = 0 := by omega
  have hhalf : ¬ 16 ≤ msg.length % 32 := by omega
  have htail : msg.length / 16 = 0 := by omega
  simp only [hchunks, hhalf, htail, if_false, List.range_zero, List.foldl_nil, Nat.mul_zero, List.drop_zero,
    ← List.length_eq_zero_iff] at hshort
  exact hshort

end

section
/-! PROOFS. Faults, holds and several units (spec/60_exceptions.md R140 to R151): commands from a state with the
invariants of R26 complete, an illegal header is answered behind the header alone, a packet is waited for. -/

namespace Sys2Proof

/-! ### What the decoder leaves -/

/-- An illegal header stands for itself, whatever follows it (R68). -/
theorem decode_illegal_header {h : Header} {k : HeaderKind} (hk : k = .illegalOpcode ∨ k = .illegalField)
    (hheader : decodeHeader h = k) (bytes : List Byte) : decode (leBytes 4 h.toNat ++ bytes) = k.decoded [] bytes := by
  rw [decode_eq_decodeBehind]
  exact (decodeBehind_eq_illegal_iff hk id).2 hheader

/-- Of an illegal header the four header bytes are consumed, and no more (R146). -/
theorem rest_eq_drop_of_decode_illegal {bytes rest : List Byte} {k : HeaderKind}
    (hk : k = .illegalOpcode ∨ k = .illegalField) (hd : decode bytes = k.decoded [] rest) : rest = bytes.drop 4 := by
  obtain hincomplete | ⟨h, payload, units, rfl, -, hdecoded⟩ := decode_cases bytes
  · rw [hincomplete] at hd
    obtain rfl | rfl := hk <;> nomatch hd
  · have hheader : decodeHeader h = k := HeaderKind.eq_of_decoded_eq hk (hdecoded.symm.trans hd)
    rw [List.append_assoc, decode_illegal_header hk hheader] at hd
    have hrest : payload ++ units = rest := by
      obtain rfl | rfl := hk
      · exact Decoded.illegalOpcode.inj hd
      · exact Decoded.illegalField.inj hd
    simp [← hrest, leBytes_length]

/-- A header that calls for payload names a command, INIT or APPEND (R68, R70). -/
theorem exists_instr_of_payloadLength_pos {h : Header} (hpos : 0 < payloadLength h) (payload rest : List Byte) :
    ∃ i, (decodeHeader h).decoded payload rest = .instr i rest := by
  have hzero := payloadLength_eq_zero (h := h)
  cases hk : decodeHeader h with
  | init | append => exact ⟨_, rfl⟩
  | _ => exact absurd (hzero (by simp [hk]) (by simp [hk])) hpos.ne'

theorem decodeHeader_eq_illegalOpcode {h : Header} (h1 : h.opc ≠ 0x01) (h2 : h.opc ≠ 0x02) (h3 : h.opc ≠ 0x03)
    (h4 : h.opc ≠ 0x04) : decodeHeader h = .illegalOpcode := by
  rw [decodeHeader, if_neg h1, if_neg h2, if_neg h3, if_neg h4]

end Sys2Proof

namespace Sys2Proof.Machine

/-! ### The steps that perform no command -/

theorem step_of_decode_illegalOpcode {s : State} {rest : List Byte} (h : decode s.input = .illegalOpcode rest) :
    step s = .next ((s.setInput rest).emit ⟨.illegalOpcode, 0, 0⟩) := by
  rw [step, h]
  rfl

theorem step_of_decode_illegalField {s : State} {rest : List Byte} (h : decode s.input = .illegalField rest) :
    step s = .next ((s.setInput rest).emit ⟨.illegalField, 0, 0⟩) := by
  rw [step, h]
  rfl

theorem step_of_decode_incomplete {s : State} (h : decode s.input = .incomplete) : step s = .next s := by
  rw [step, h]

/-! ### Safety -/

/-- Every command with every operand completes with STATUS OK from a state that meets the invariants (R140). -/
theorem State.Inv.exec_ok {s : State} (h : s.Inv) (i : Instr) :
    ∃ t w0 w1, exec i s = .next t ∧ t.output = s.output ++ [⟨.ok, w0, w1⟩] := by
  obtain ⟨bytes, hbytes⟩ := h.exists_holds
  obtain ⟨⟨w0, w1⟩, hw⟩ := finalize_total_of_holds hbytes
  obtain ⟨h128, h64⟩ := exec_digests_of_finalize hw
  cases i with
  | init seed1 seed2 => exact ⟨_, 0, 0, rfl, rfl⟩
  | append payload =>
    obtain ⟨t, ht, -, -, hout⟩ := execAppend_of_holds hbytes payload
    exact ⟨t, 0, 0, ht, hout⟩
  | digest64 => exact ⟨_, w0, 0, h64, rfl⟩
  | digest128 => exact ⟨_, w0, w1, h128, rfl⟩

/-- A step fails only in a command that it performs (R146, R151). -/
theorem State.Inv.safe {s : State} (h : s.Inv) : s.Safe := by
  cases hd : decode s.input with
  | instr i rest =>
    obtain ⟨t, -, -, ht, -⟩ := (h.of_sameArch (s.setInput_sameArch rest)).exec_ok i
    exact ⟨t, (step_of_decode_instr hd).trans ht⟩
  | illegalOpcode rest => exact ⟨_, step_of_decode_illegalOpcode hd⟩
  | illegalField rest => exact ⟨_, step_of_decode_illegalField hd⟩
  | incomplete => exact ⟨s, step_of_decode_incomplete hd⟩

/-! ### Several units -/

/-- A step of unit `k` replaces that unit by what it becomes; where there is no unit, nothing is replaced (R149). -/
theorem Units.step_eq_next {us vs : Units} {k : Nat} (h : us.step k = .next vs) :
    (us[k]? = none ∧ vs = us) ∨ ∃ s t, us[k]? = some s ∧ Machine.step s = .next t ∧ vs = us.set k t := by
  rw [Units.step] at h
  cases hs : us[k]? with
  | none =>
    rw [hs] at h
    exact .inl ⟨rfl, (Host.Outcome.next.inj h).symm⟩
  | some s =>
    simp only [hs] at h
    cases ht : Machine.step s <;> rw [ht] at h
    case next t => exact .inr ⟨s, t, rfl, ht, (Host.Outcome.next.inj h).symm⟩
    all_goals nomatch h

end Sys2Proof.Machine

open Sys2Proof Sys2Proof.Machine

/-- Settles O50: a step changes the list of units at its own index only. -/
theorem unitsShareNothing : Obligations.UnitsShareNothing := by
  intro us vs k h j hj
  obtain ⟨-, rfl⟩ | ⟨s, t, -, -, rfl⟩ := Units.step_eq_next h
  · rfl
  · exact List.getElem?_set_ne hj.symm

/-- Settles O15: the valid region is filled, so no command reads a byte that has no value. -/
theorem legalCommandsCannotFail : Obligations.LegalCommandsCannotFail :=
  fun _ h => ⟨h.exec_ok, h.safe⟩

/-- Settles O38: the packet is the header alone. -/
theorem unknownOpcodeIsAnsweredIllegalOpcode : Obligations.UnknownOpcodeIsAnsweredIllegalOpcode := by
  intro s h rest hin h1 h2 h3 h4
  have hheader : decodeHeader h = .illegalOpcode := decodeHeader_eq_illegalOpcode h1 h2 h3 h4
  exact step_of_decode_illegalOpcode (by rw [hin]; exact decode_illegal_header (.inl rfl) hheader rest)

/-- Settles O39. -/
theorem nonzeroArgIsAnsweredIllegalField : Obligations.NonzeroArgIsAnsweredIllegalField :=
  ⟨fun _ _ _ hin hopc harg => step_of_illegalField hin (decodeHeader_eq_illegalField hopc harg),
    fun _ => decodeHeader_eq_append_iff.2⟩

/-- Settles O40, for each of the two faults. -/
theorem decodeFaultChangesNothing : Obligations.DecodeFaultChangesNothing := by
  rintro s rest (hd | hd)
  · exact ⟨_, .illegalOpcode, step_of_decode_illegalOpcode hd, s.setInput_emit_sameArch rest _,
      rest_eq_drop_of_decode_illegal (.inl rfl) hd, rfl, .inl rfl⟩
  · exact ⟨_, .illegalField, step_of_decode_illegalField hd, s.setInput_emit_sameArch rest _,
      rest_eq_drop_of_decode_illegal (.inr rfl) hd, rfl, .inr rfl⟩

/-- Settles O47: only INIT and APPEND have a payload to wait for, and the packet that the missing bytes complete is one
of them. -/
theorem incompletePacketHolds : Obligations.IncompletePacketHolds := by
  intro s h payload hin hpartial
  refine ⟨step_of_decode_incomplete (hin ▸ decode_partial_payload hpartial), fun more hwhole => ?_⟩
  have hpos : 0 < payloadLength h := by omega
  obtain ⟨i, hi⟩ := exists_instr_of_payloadLength_pos hpos (payload ++ more) []
  have hdecode : decode (leBytes 4 h.toNat ++ payload ++ more) = .instr i [] := by
    rw [← hi, ← decode_packet [] (by rw [List.length_append, hwhole]), List.append_nil, List.append_assoc]
  have hinput : decode (s.supply more).input = .instr i [] := by rw [State.supply, State.setInput_input, hin, hdecode]
  exact ⟨i, hdecode, step_of_decode_instr hinput⟩

end

section
/-! PROOFS. Reset (spec/70_reset_and_hazards.md R160, R161): the first digest after it, and the reset event. -/

namespace Sys2Proof.Machine

/-- SHORT of the empty message under seeds (0, 0): vector V1 of 95_test_vectors.md, with both words. -/
theorem short_nil_zero_seeds : short [] 0 0 = .ok (0x232706fc6bf50919, 0x8b72ee65b4e851c7) := by rfl

/-- After reset nothing is counted or buffered and both seeds are 0 (R31, R33): Finalize is SHORT of the empty message. -/
theorem finalize_reset : finalize State.reset = .ok (0x232706fc6bf50919, 0x8b72ee65b4e851c7) :=
  calc finalize State.reset = short [] 0 0 := finalize_of_holds (holds_nil rfl)
    _ = _ := short_nil_zero_seeds

/-- Of what was in progress the reset event keeps the responses already emitted, and nothing else (R160). -/
theorem State.applyReset_eq (s : State) (k : Config.ResetKind) :
    s.applyReset k = { State.reset with output := s.output } := by
  cases k
  rfl

end Sys2Proof.Machine

open Sys2Proof Sys2Proof.Machine

/-- Settles O2: the four bytes are the encoding of DIGEST64, and once they are consumed the state is that of reset, of
which Finalize is known. -/
theorem knownAnswerAfterReset : Obligations.KnownAnswerAfterReset := by
  obtain ⟨-, h64⟩ := exec_digests_of_finalize finalize_reset
  have hdecode : decode [0x03, 0x00, 0x00, 0x00] = .instr .digest64 [] := decodeOfEncode .digest64 [] rfl
  exact (step_of_decode_instr hdecode).trans h64

/-- Settles O3. -/
theorem resetEventDiscardsEverythingInProgress : Obligations.ResetEventDiscardsEverythingInProgress := by
  intro s k
  rw [s.applyReset_eq k]
  exact ⟨⟨rfl, rfl, rfl, rfl⟩, rfl, rfl⟩

end
